-- ==== Sys2Proof/Word.lean ====
section
/-! DEFINITION. The widths of the engine: bytes, 32-bit words, the 64-bit counter (00_scope.md R6, R8). -/

namespace Sys2Proof

/-- A `u8` (R8); one beat of `DIN` or `DOUT` (R49). -/
abbrev Byte := BitVec 8

/-- A `u32` (R8): a chaining register, a working variable, a message word, a command or response word. -/
abbrev Word := BitVec 32

/-- A `u64` (R8): the byte counter `LEN` (R24) and the length field (R132). -/
abbrev DWord := BitVec 64

/-- Five `u32`: the chaining registers `H[0]` to `H[4]` of one context (R21), and the value `COMPRESS` maps (R80). -/
structure Regs where
  h0 : Word
  h1 : Word
  h2 : Word
  h3 : Word
  h4 : Word
deriving DecidableEq, Repr

/-- A complete message block: exactly 64 bytes, so that `COMPRESS` has no other domain (R46, R80). -/
abbrev Block := { bs : List Byte // bs.length = 64 }

end Sys2Proof
end

