-- ==== Sys2Proof/Config.lean ====
section
/-! DEFINITION. What is fixed for every engine of this spec (00_scope.md R6, R7).
The one OPEN parameter, `NCTX`, is the length of the context file of a state (log 1); its value at reset is in Machine/Params.lean. -/

namespace Sys2Proof.Config

/-- Published constant: bytes consumed by one compression (R6, R7). -/
def blockBytes : Nat := 64

/-- Published constant: bytes of output (R6, R7). -/
def digestBytes : Nat := 20

/-- Published constant: the registered object identifier 1.3.36.3.2.1, metadata only (R7). -/
def objectIdentifier : List Nat := [1, 3, 36, 3, 2, 1]

/-- Rounds per line (R6). -/
def rounds : Nat := 80

/-- The least number of context slots (R6, `NCTX`). -/
def minContexts : Nat := 1

/-- The greatest number of context slots (R6, `NCTX`): a context index has 8 bits in a command word. -/
def maxContexts : Nat := 256

/-- The greatest payload of one `ABSORB`: `COUNT` has 16 bits (R6, R63). -/
def maxCount : Nat := 65535

end Sys2Proof.Config
end

