-- ==== Sys2Proof/Syntax.lean ====
section
/-! DEFINITION. The four commands and their operands (30_encoding.md R60; opcode_table.json). -/

namespace Sys2Proof

/-- One constructor per row of the opcode table (R60, R65).
The payload of `ABSORB` is not part of the word: it is the next `n` bytes on `DIN` (R66, R67). -/
inductive Instr where
  /-- `INIT c` (R110). -/
  | init (c : Nat)
  /-- `ABSORB c, data` with `n = |data|` (R111). -/
  | absorb (c n : Nat)
  /-- `DIGEST c` (R134). -/
  | digest (c : Nat)
  /-- `COPY d, s`: destination first, as in the word (R116, R71). -/
  | copy (d s : Nat)
deriving DecidableEq, Repr

end Sys2Proof
end

