-- ==== Sys2Proof/WellFormed.lean ====
section
/-! DEFINITION. Which commands a command word can spell: every operand fits its field (30_encoding.md R61 to R64, R66). -/

namespace Sys2Proof

/-- A context index fits the 8 bits of `CTX` or `SRC` (R61, R64). -/
def indexFits (c : Nat) : Bool := decide (c < 256)

/-- A payload length fits the 16 bits of `COUNT` (R63). -/
def countFits (n : Nat) : Bool := decide (n < 65536)

/-- Every operand of the command fits its field of the command word.
Whether an index is below `NCTX` is no matter of spelling (R65): the command then runs or faults with `BAD_CONTEXT`. -/
def Instr.wf : Instr → Bool
  | .init c => indexFits c
  | .absorb c n => indexFits c && countFits n
  | .digest c => indexFits c
  | .copy d s => indexFits d && indexFits s

end Sys2Proof
end

