-- ==== Sys2Proof/Decode.lean ====
section
/-! DEFINITION. The decoder, total on every 32-bit word, and the encoder (30_encoding.md R61 to R68, R73).
`decode` reads what a word SPELLS; whether its context indices are below `NCTX` is decided where `NCTX` is known
(`verdict`, and the meanings themselves): R65 says that match and mask say only which command is spelled. -/

namespace Sys2Proof

/-- The three faults of a command word (60_exceptions.md R151).
`illegalOpcode` and `reservedField` are raised by the decoder, `badContext` by a meaning whose index is `NCTX` or more.
All three are effects of the engine (a response word, R153), not stops of the model. -/
inductive Cause where
  | illegalOpcode
  | reservedField
  | badContext
deriving DecidableEq, Repr

/-- The cause code in `RSP[7:0]` (R69, R151). -/
def causeCode : Cause → Nat
  | .illegalOpcode => 1
  | .reservedField => 2
  | .badContext => 3

/-- `w[hi:lo]`, the unsigned integer made of bits `hi` down to `lo` (00_scope.md R8). -/
def bits (w : Word) (hi lo : Nat) : Nat := w.toNat / 2 ^ lo % 2 ^ (hi - lo + 1)

/-- `OPC = CW[31:24]` (R61). -/
def opcOf (w : Word) : Nat := bits w 31 24
/-- `CTX = CW[23:16]` (R61). -/
def ctxOf (w : Word) : Nat := bits w 23 16
/-- `ARG = CW[15:0]` (R61); `COUNT` of format `A` (R63). -/
def argOf (w : Word) : Nat := bits w 15 0
/-- `SRC = CW[15:8]` of format `P` (R64). -/
def srcOf (w : Word) : Nat := bits w 15 8
/-- `CW[7:0]`, which format `P` requires to be zero (R64). -/
def lowOf (w : Word) : Nat := bits w 7 0

/-- The command a word spells, or the cause with which it spells none (R65, R68).
A reserved opcode outranks a reserved field (R152). -/
def decode (w : Word) : Except Cause Instr :=
  if opcOf w = 1 then (if argOf w ≠ 0 then .error .reservedField else .ok (.init (ctxOf w)))
  else if opcOf w = 2 then .ok (.absorb (ctxOf w) (argOf w))
  else if opcOf w = 3 then (if argOf w ≠ 0 then .error .reservedField else .ok (.digest (ctxOf w)))
  else if opcOf w = 4 then (if lowOf w ≠ 0 then .error .reservedField else .ok (.copy (ctxOf w) (srcOf w)))
  else .error .illegalOpcode

/-- The word of a command, field by field (R61 to R65). -/
def encode : Instr → Word
  | .init c => BitVec.ofNat 32 (1 * 2 ^ 24 + c * 2 ^ 16)
  | .absorb c n => BitVec.ofNat 32 (2 * 2 ^ 24 + c * 2 ^ 16 + n)
  | .digest c => BitVec.ofNat 32 (3 * 2 ^ 24 + c * 2 ^ 16)
  | .copy d s => BitVec.ofNat 32 (4 * 2 ^ 24 + d * 2 ^ 16 + s * 2 ^ 8)

/-- One row of the opcode table: a word spells the row's command exactly when `w &&& mask = pattern` (R65). -/
structure Row where
  pattern : Word
  mask    : Word
deriving DecidableEq, Repr

/-- The row of each command, as R65 and opcode_table.json give it. -/
def rowOf : Instr → Row
  | .init _ => ⟨0x01000000#32, 0xFF00FFFF#32⟩
  | .absorb _ _ => ⟨0x02000000#32, 0xFF000000#32⟩
  | .digest _ => ⟨0x03000000#32, 0xFF00FFFF#32⟩
  | .copy _ _ => ⟨0x04000000#32, 0xFF0000FF#32⟩

/-- The word matches the row (R65). -/
def Row.spells (r : Row) (w : Word) : Bool := decide (w &&& r.mask = r.pattern)

/-- What R73's decoder answers, with `NCTX` as parameter. -/
inductive Verdict where
  /-- one of the four commands with legal operands -/
  | command (i : Instr)
  /-- `Fault cause`: no payload byte is taken -/
  | faulted (cause : Cause)
  /-- `FaultAbsorb cause n`: `n` payload bytes are taken and discarded (R154) -/
  | faultedAbsorb (cause : Cause) (n : Nat)
deriving DecidableEq, Repr

/-- R73's `decode`, line by line. -/
def verdict (nctx : Nat) (w : Word) : Verdict :=
  if opcOf w = 1 then
    (if argOf w ≠ 0 then .faulted .reservedField else if nctx ≤ ctxOf w then .faulted .badContext else .command (.init (ctxOf w)))
  else if opcOf w = 2 then
    (if nctx ≤ ctxOf w then .faultedAbsorb .badContext (argOf w) else .command (.absorb (ctxOf w) (argOf w)))
  else if opcOf w = 3 then
    (if argOf w ≠ 0 then .faulted .reservedField else if nctx ≤ ctxOf w then .faulted .badContext else .command (.digest (ctxOf w)))
  else if opcOf w = 4 then
    (if lowOf w ≠ 0 then .faulted .reservedField
     else if nctx ≤ ctxOf w ∨ nctx ≤ srcOf w then .faulted .badContext else .command (.copy (ctxOf w) (srcOf w)))
  else .faulted .illegalOpcode

/-- The word whose bits are the low `nbits` of `w`, numbered as opcode_table.json numbers them.
A command is one 32-bit beat and has no byte order of its own (R61). -/
def tableWord (nbits w : Nat) : Word := BitVec.ofNat 32 (w % 2 ^ nbits)

/-- The command the decoder reads from a word numbered as opcode_table.json numbers it; none where it refuses. -/
def decodeTableWord (nbits w : Nat) : Option Instr := (decode (tableWord nbits w)).toOption

end Sys2Proof
end

