-- ==== Sys2Proof/Machine/Params.lean ====
section
/-! DEFINITION. The initial chaining value and the number of slots the model's reset builds. -/

namespace Sys2Proof.Machine

/-- The initial chaining value, constants of the engine and not state (10_state.md R22, R31). -/
def iv : Regs := ⟨0x67452301#32, 0xEFCDAB89#32, 0x98BADCFE#32, 0x10325476#32, 0xC3D2E1F0#32⟩

/-- The number of contexts of `State.reset` (DESIGN CHOICE, log 1): `NCTX` is OPEN, and 2 is what R152's example and the
programs of 95_test_vectors.md use. Every other number of slots is a state too, and statements cover it. -/
def nctxAtReset : Nat := 2

end Sys2Proof.Machine
end

