-- ==== Sys2Proof/Machine/State.lean ====
section
/-! DEFINITION. Everything the spec gives the machine: the context file (10_state.md), the four ports and the reset input
(20_memory.md R49, 70_reset_and_hazards.md R170, R171), all as plain data. -/

namespace Sys2Proof.Machine

/-- The message buffer `BUF` of one context: the byte at index `off` is the byte at offset `off`, and `FILL` is the length
(10_state.md R23, 20_memory.md R45). Storage at and above `FILL` is not architectural and not represented (log 8). -/
abbrev Memory := List Byte

/-- The canonical form of a buffer between commands: `0 <= FILL <= 63` (R23, R26). -/
abbrev Memory.wf (m : Memory) : Prop := m.length < 64

/-- One context, S1's `HashState` (R20). -/
structure Context where
  /-- `H[0]` to `H[4]` (R21) -/
  regs : Regs
  /-- `BUF` (R23) -/
  buf  : Memory
  /-- `LEN`, the byte counter (R24) -/
  len  : DWord
  /-- `OVF`, the sticky overflow flag (R25) -/
  ovf  : Bool
deriving DecidableEq, Repr

/-- `FILL`, derived and no field of its own (R20, R23). -/
def Context.fill (x : Context) : Nat := x.buf.length

/-- The freshly initialised context (R35, R110). -/
def Context.fresh : Context := ⟨iv, [], 0#64, false⟩

/-- One beat from the engine to the host: a response word or a digest byte (R49). -/
inductive Beat where
  | rsp (w : Word)
  | dout (b : Byte)
deriving DecidableEq, Repr

/-- The reset input as the host drives it (R170, R171; log 5). A pulse is one step of the model. -/
inductive ResetInput where
  /-- not asserted: the engine runs -/
  | released
  /-- asserted and released while no command is in progress -/
  | atIdle
  /-- asserted and released while the command at the head of `cmd` is in progress: `took` of its payload bytes had been
  taken and `gave` of its digest bytes transferred -/
  | inCommand (took gave : Nat)
deriving DecidableEq, Repr

/-- The state of the machine. `NCTX` is the length of `ctxs` (log 1). -/
structure State where
  /-- the context file, slot 0 first (R20) -/
  ctxs      : List Context
  /-- words offered on `CMD` and not yet executed, oldest first (R49, R61) -/
  cmd       : List Word
  /-- bytes offered on `DIN` and not yet taken, oldest first (R49, R67) -/
  din       : List Byte
  /-- beats transferred on `RSP` and `DOUT`, oldest first, in one sequence so that R49's and R70's order is kept -/
  out       : List Beat
  /-- the host takes beats from `RSP` (R49, R174) -/
  rspReady  : Bool
  /-- the host takes beats from `DOUT` (R49, R174) -/
  doutReady : Bool
  /-- the reset input (R170, R171) -/
  rst       : ResetInput
deriving DecidableEq, Repr

/-- Stuck states: the engine has no step until the host acts or reset comes (93_implementation_defined.md U8; log 3).
None of them is a fault of the hardware; those are responses (R153). All are SAFE: the model stops where the hardware waits,
and nothing the host could observe is claimed of the wait. -/
inductive Fault where
  /-- raised by `acceptCommand`: no command word is offered on `CMD` (R13: a step is one whole command). SAFE. -/
  | awaitCommand
  /-- raised by `takePayload`, so by `ABSORB` only: `DIN` holds fewer than `COUNT` bytes (R67, R173). SAFE. -/
  | awaitPayload
  /-- raised by `respond`, so by every command: the host does not take beats from `RSP` (R174). SAFE. -/
  | awaitRspTaken
  /-- raised by `emitDout`, so by `DIGEST` only: the host does not take beats from `DOUT` (R174). SAFE. -/
  | awaitDoutTaken
deriving DecidableEq, Repr

/-- Reasons for having no meaning. Every command has one, so nothing raises this. -/
inductive Refusal where
  /-- an arm of `exec` without a meaning; raised by no arm. SAFE. -/
  | notModelled (mnemonic : String)
deriving DecidableEq, Repr

/-- What a step, a meaning or one of their parts answers. -/
abbrev Outcome := Host.Outcome State Fault Refusal

/-- `NCTX` (R6, R20). -/
def State.nctx (s : State) : Nat := s.ctxs.length

/-- The state after reset of an engine with `n` slots (R35, R170): every context fresh, the engine idle, nothing offered,
nothing pending; the host ready (log 4) and the reset input released. -/
def State.resetWith (n : Nat) : State where
  ctxs      := List.replicate n Context.fresh
  cmd       := []
  din       := []
  out       := []
  rspReady  := true
  doutReady := true
  rst       := .released

/-- The machine right after reset. -/
def State.reset : State := State.resetWith nctxAtReset

end Sys2Proof.Machine
end

