-- ==== Sys2Proof/Machine/Flags.lean ====
section
/-! DEFINITION. The status computations: `LEN` and `OVF` (10_state.md R24, R25; 41_streaming.md R113) and the response word
(30_encoding.md R69). `OVF` is the only flag of the engine (R37). -/

namespace Sys2Proof.Machine

/-- `LEN` after `n` more bytes: the natural sum reduced modulo 2^64 (R113). -/
def lenAfter (len : DWord) (n : Nat) : DWord := BitVec.ofNat 64 (len.toNat + n)

/-- `OVF` after `n` more bytes: set when the natural sum reaches 2^61, never cleared (R25, R113). -/
def ovfAfter (len : DWord) (ovf : Bool) (n : Nat) : Bool := ovf || decide (2 ^ 61 ≤ len.toNat + n)

/-- The response to a command: completed, with `OVF` of the context in `CTX`, or faulted (R69).
`Response.word` gives these five values and no other (93_implementation_defined.md U7). -/
inductive Response where
  | done (ovf : Bool)
  | faulted (cause : Cause)
deriving DecidableEq, Repr

/-- `respond(cause, ovf)` issues `cause + 256 * ovf` (R69, R153). -/
def responseWord : Response → Word
  | .done ovf => BitVec.ofNat 32 (0 + 256 * ovf.toNat)
  | .faulted cause => BitVec.ofNat 32 (causeCode cause)

end Sys2Proof.Machine
end

