-- ==== Sys2Proof/Machine/Ops.lean ====
section
/-! DEFINITION. The named operations: words and bytes (00_scope.md R9, R10), the message buffer (20_memory.md R45), the
context file, the ports (R49), the response, and raising a fault (60_exceptions.md R153). -/

namespace Sys2Proof.Machine

/-! ### Words and bytes -/

/-- Circular left rotation (R9); the engine uses `1 <= n <= 31` only. `add32` is `+` and `not32` is `~~~` of `BitVec 32`. -/
def rol32 (x : Word) (n : Nat) : Word := (x <<< n) ||| (x >>> (32 - n))

/-- `LE32(b0, b1, b2, b3)`, the first byte least significant (R10, R41). -/
def le32 (b0 b1 b2 b3 : Byte) : Word :=
  BitVec.ofNat 32 (b0.toNat + 2 ^ 8 * b1.toNat + 2 ^ 16 * b2.toNat + 2 ^ 24 * b3.toNat)

/-- Byte `n` of a value, counted from the least significant (R10). -/
def byteOf {w : Nat} (v : BitVec w) (n : Nat) : Byte := BitVec.ofNat 8 (v.toNat / 2 ^ (8 * n))

/-- `bytes32(w)`, least significant byte first (R10, R43). -/
def bytes32 (w : Word) : List Byte := [byteOf w 0, byteOf w 1, byteOf w 2, byteOf w 3]

/-- `bytes64(v)`, least significant byte first (R10, R42). -/
def bytes64 (v : DWord) : List Byte :=
  [byteOf v 0, byteOf v 1, byteOf v 2, byteOf v 3, byteOf v 4, byteOf v 5, byteOf v 6, byteOf v 7]

/-- `zeros(n)` (R8). -/
def zeros (n : Nat) : List Byte := List.replicate n 0#8

/-! ### The message buffer -/

/-- `MemRead(c, off, 1)` (R45); an offset at or above `FILL` holds no architectural byte. -/
def Memory.read1 (m : Memory) (off : Nat) : Option Byte := m[off]?

/-- `MemRead(c, off, 4)`, little-endian, used with `off = 4 i` only (R45, R48). -/
def Memory.read4 (m : Memory) (off : Nat) : Option Word :=
  match m[off]?, m[off + 1]?, m[off + 2]?, m[off + 3]? with
  | some b0, some b1, some b2, some b3 => some (le32 b0 b1 b2 b3)
  | _, _, _, _ => none

/-- `MemWrite(c, FILL, 1, v)` and `FILL <- FILL + 1`: the byte append (R45, R48). -/
def Memory.append (m : Memory) (v : Byte) : Memory := m ++ [v]

/-! ### Outcomes -/

/-- Runs `f` on what `o` hands on; a stop of `o` is the stop of the whole. -/
def andThen {α β : Type} (o : Host.Outcome α Fault Refusal) (f : α → Host.Outcome β Fault Refusal) :
    Host.Outcome β Fault Refusal :=
  match o with
  | .next a => f a
  | .fault r => .fault r
  | .refused r => .refused r

/-! ### State updates -/

/-- Context `c` takes the value `x`. -/
def State.setCtx (s : State) (c : Nat) (x : Context) : State := { s with ctxs := s.ctxs.set c x }

/-- The words offered on `CMD` are `ws`. -/
def State.setCmd (s : State) (ws : List Word) : State := { s with cmd := ws }

/-- The bytes offered on `DIN` are `bs`. -/
def State.setDin (s : State) (bs : List Byte) : State := { s with din := bs }

/-- The beats `bs` are transferred to the host, in order (R49). -/
def State.emit (s : State) (bs : List Beat) : State := { s with out := s.out ++ bs }

/-- The reset input is driven to `r`. -/
def State.setRst (s : State) (r : ResetInput) : State := { s with rst := r }

/-! ### Ports -/

/-- Takes `n` payload bytes from `DIN`, the oldest first (R44, R67); stuck while fewer have arrived (R173). -/
def takePayload (n : Nat) (s : State) : Host.Outcome (List Byte × State) Fault Refusal :=
  if n ≤ s.din.length then .next (s.din.take n, s.setDin (s.din.drop n)) else .fault .awaitPayload

/-- `emit DOUT(bytes)` (R49, R70); stuck while the host does not take them (R174). -/
def emitDout (bs : List Byte) (s : State) : Outcome :=
  if s.doutReady then .next (s.emit (bs.map Beat.dout)) else .fault .awaitDoutTaken

/-- `respond(cause, ovf)`: one response word on `RSP` (R69); stuck while the host does not take it (R174). -/
def respond (r : Response) (s : State) : Outcome :=
  if s.rspReady then .next (s.emit [Beat.rsp (responseWord r)]) else .fault .awaitRspTaken

/-! ### Faults of a command word -/

/-- `raise <Fault>(cause)` (R153): no context is written, nothing on `DOUT`, one response word with the cause, and the engine
accepts the next word. Nothing is saved, no mode changes and there is no return from it (R155). -/
def raiseFault (cause : Cause) (s : State) : Outcome := respond (.faulted cause) s

end Sys2Proof.Machine
end

