-- ==== Sys2Proof/Machine/Operands.lean ====
section
/-! DEFINITION. The operand forms: a context index (30_encoding.md R66) and the contexts a command names (20_memory.md R52). -/

namespace Sys2Proof.Machine

/-- The context operand `c`: legal when `c < NCTX`, else `BAD_CONTEXT` before any context is read or written (R66, R151). -/
def withContext (c : Nat) (s : State) (k : Context → Outcome) : Outcome :=
  match s.ctxs[c]? with
  | some x => k x
  | none => raiseFault .badContext s

/-- The contexts a command names (R52). -/
def namedContexts : Instr → List Nat
  | .init c => [c]
  | .absorb c _ => [c]
  | .digest c => [c]
  | .copy d s => [d, s]

/-- The context a command writes, if it writes one (R27): `DIGEST` writes nothing. -/
def writtenContext : Instr → Option Nat
  | .init c => some c
  | .absorb c _ => some c
  | .digest _ => none
  | .copy d _ => some d

/-- The number of payload bytes a command takes from `DIN` (R67). -/
def payloadCount : Instr → Nat
  | .init _ => 0
  | .absorb _ n => n
  | .digest _ => 0
  | .copy _ _ => 0

/-- Every context index of the command is below `NCTX` (R66). -/
def legalIn (nctx : Nat) (i : Instr) : Bool := (namedContexts i).all fun c => decide (c < nctx)

end Sys2Proof.Machine
end

