-- ==== Sys2Proof/Machine/Padding.lean ====
section
/-! DEFINITION. The padding and length encoder and the digest serialiser (42_digest.md R130 to R133). -/

namespace Sys2Proof.Machine

/-- `BITLEN(len) = (8 * len) mod 2^64` (R132). -/
def bitlen (len : DWord) : DWord := BitVec.ofNat 64 (8 * len.toNat)

/-- The number of zero bytes of the padding of `p` waiting bytes: the `z` below 64 that makes `p + 1 + z` congruent to 56
modulo 64, R130's `(55 - p) mod 64`. -/
def zeroCount (p : Nat) : Nat := (119 - p % 64) % 64

/-- `PAD(buf, len)` (R130). -/
def pad (buf : List Byte) (len : DWord) : List Byte :=
  buf ++ [0x80#8] ++ zeros (zeroCount buf.length) ++ bytes64 (bitlen len)

/-- `SER(h)`: word 0 first, each word least significant byte first (R43, R133). -/
def ser (h : Regs) : List Byte := bytes32 h.h0 ++ bytes32 h.h1 ++ bytes32 h.h2 ++ bytes32 h.h3 ++ bytes32 h.h4

end Sys2Proof.Machine
end

