-- ==== Sys2Proof/Machine/Tables.lean ====
section
/-! DEFINITION. The word scheduler, the shift tables and the additive constants (40_compression.md R84 to R88, R98), five rows of
sixteen entries each as the spec prints them (log 7). Read-only logic, no state (10_state.md R31). -/

namespace Sys2Proof.Machine

/-- The sub-round of round `j`, `floor(j / 16)` (R83). -/
def subRound (j : Fin 80) : Fin 5 := ⟨j.val / 16, by omega⟩

/-- The place of round `j` in its sub-round, `j mod 16`. -/
def inSubRound (j : Fin 80) : Fin 16 := ⟨j.val % 16, by omega⟩

/-- The rows of `RL` (R84). -/
def rowsRL : Vector (Vector (Fin 16) 16) 5 := #v[
  #v[0, 1, 2, 3, 4, 5, 6, 7, 8, 9, 10, 11, 12, 13, 14, 15],
  #v[7, 4, 13, 1, 10, 6, 15, 3, 12, 0, 9, 5, 2, 14, 11, 8],
  #v[3, 10, 14, 4, 9, 15, 8, 1, 2, 7, 0, 6, 13, 11, 5, 12],
  #v[1, 9, 11, 10, 0, 8, 12, 4, 13, 3, 7, 15, 14, 5, 6, 2],
  #v[4, 0, 5, 9, 7, 12, 2, 10, 14, 1, 3, 8, 11, 6, 15, 13]]

/-- The rows of `RR` (R85). -/
def rowsRR : Vector (Vector (Fin 16) 16) 5 := #v[
  #v[5, 14, 7, 0, 9, 2, 11, 4, 13, 6, 15, 8, 1, 10, 3, 12],
  #v[6, 11, 3, 7, 0, 13, 5, 10, 14, 15, 8, 12, 4, 9, 1, 2],
  #v[15, 5, 1, 3, 7, 14, 6, 9, 11, 8, 12, 2, 10, 0, 4, 13],
  #v[8, 6, 4, 1, 3, 11, 15, 0, 5, 12, 2, 13, 9, 7, 10, 14],
  #v[12, 15, 10, 4, 1, 5, 8, 7, 6, 2, 13, 14, 0, 3, 9, 11]]

/-- The rows of `SL` (R86). -/
def rowsSL : Vector (Vector Nat 16) 5 := #v[
  #v[11, 14, 15, 12, 5, 8, 7, 9, 11, 13, 14, 15, 6, 7, 9, 8],
  #v[7, 6, 8, 13, 11, 9, 7, 15, 7, 12, 15, 9, 11, 7, 13, 12],
  #v[11, 13, 6, 7, 14, 9, 13, 15, 14, 8, 13, 6, 5, 12, 7, 5],
  #v[11, 12, 14, 15, 14, 15, 9, 8, 9, 14, 5, 6, 8, 6, 5, 12],
  #v[9, 15, 5, 11, 6, 8, 13, 12, 5, 12, 13, 14, 11, 8, 5, 6]]

/-- The rows of `SR` (R87). -/
def rowsSR : Vector (Vector Nat 16) 5 := #v[
  #v[8, 9, 9, 11, 13, 15, 15, 5, 7, 7, 8, 11, 14, 14, 12, 6],
  #v[9, 13, 15, 7, 12, 8, 9, 11, 7, 7, 12, 7, 6, 15, 13, 11],
  #v[9, 7, 15, 11, 8, 6, 6, 14, 12, 13, 5, 14, 13, 13, 7, 5],
  #v[15, 5, 8, 11, 14, 14, 6, 14, 6, 9, 12, 9, 12, 5, 15, 8],
  #v[8, 5, 12, 9, 12, 5, 14, 6, 8, 13, 6, 5, 15, 13, 11, 11]]

/-- The additive constants of the left line, one per sub-round (R88). -/
def rowKL : Vector Word 5 := #v[0x00000000#32, 0x5A827999#32, 0x6ED9EBA1#32, 0x8F1BBCDC#32, 0xA953FD4E#32]

/-- The additive constants of the right line, one per sub-round (R88). -/
def rowKR : Vector Word 5 := #v[0x50A28BE6#32, 0x5C4DD124#32, 0x6D703EF3#32, 0x7A6D76E9#32, 0x00000000#32]

/-- `RL[j]`, the message word the left line selects in round `j` (R84). -/
def selL (j : Fin 80) : Fin 16 := (rowsRL.get (subRound j)).get (inSubRound j)
/-- `RR[j]`, the message word the right line selects in round `j` (R85). -/
def selR (j : Fin 80) : Fin 16 := (rowsRR.get (subRound j)).get (inSubRound j)
/-- `SL[j]`, the rotate amount of the left line in round `j` (R86). -/
def rotL (j : Fin 80) : Nat := (rowsSL.get (subRound j)).get (inSubRound j)
/-- `SR[j]`, the rotate amount of the right line in round `j` (R87). -/
def rotR (j : Fin 80) : Nat := (rowsSR.get (subRound j)).get (inSubRound j)
/-- `KL[floor(j/16)]` (R88). -/
def addL (j : Fin 80) : Word := rowKL.get (subRound j)
/-- `KR[floor(j/16)]` (R88). -/
def addR (j : Fin 80) : Word := rowKR.get (subRound j)

end Sys2Proof.Machine
end

