-- ==== Sys2Proof/Machine/Transform.lean ====
section
/-! DEFINITION. The compression transform (40_compression.md R80 to R96), a pure total function of five words and one block. -/

namespace Sys2Proof.Machine

/-- The five working variables of one line (R29, R89): temporaries of `COMPRESS`, not state. -/
structure Work where
  a : Word
  b : Word
  c : Word
  d : Word
  e : Word
deriving DecidableEq, Repr

/-! ### Word load (R81) -/

/-- `LOADW`: message word `i` of a block, little-endian, from byte offset `4 i` (R41, R81). -/
def loadw (blk : Block) (i : Fin 16) : Word :=
  have h : blk.val.length = 64 := blk.property
  le32 (blk.val[4 * i.val]'(by omega)) (blk.val[4 * i.val + 1]'(by omega)) (blk.val[4 * i.val + 2]'(by omega))
    (blk.val[4 * i.val + 3]'(by omega))

/-! ### The boolean functions (R82, R83) -/

/-- XOR chain. -/
def f1 (x y z : Word) : Word := x ^^^ y ^^^ z
/-- Select by `x` (a select, not a majority: 90_conflicts.md C2). -/
def f2 (x y z : Word) : Word := (x &&& y) ||| (~~~x &&& z)
/-- OR with complement, then XOR (no AND: C2). -/
def f3 (x y z : Word) : Word := (x ||| ~~~y) ^^^ z
/-- Select by `z`. -/
def f4 (x y z : Word) : Word := (x &&& z) ||| (y &&& ~~~z)
/-- The shape of `f3` with the operands moved. -/
def f5 (x y z : Word) : Word := x ^^^ (y ||| ~~~z)

/-- `f(k + 1)` for `k = 0` to `4` (R83). -/
def boolFn (k : Fin 5) : Word → Word → Word → Word :=
  match k with
  | 0 => f1
  | 1 => f2
  | 2 => f3
  | 3 => f4
  | 4 => f5

/-- The function of the left line in round `j`: `f(k + 1)` (R83). -/
def fnL (j : Fin 80) : Word → Word → Word → Word := boolFn (subRound j)

/-- The function of the right line in round `j`: `f(5 - k)`, the mirrored order (R83). -/
def fnR (j : Fin 80) : Word → Word → Word → Word := boolFn (subRound j).rev

/-! ### Rounds (R89 to R93) -/

/-- Both lines start from the same five registers (R89). -/
def Work.ofRegs (h : Regs) : Work := ⟨h.h0, h.h1, h.h2, h.h3, h.h4⟩

/-- `ROUNDL(j)` (R90), with the 10-bit rotate of the value moving from `C` to `D` (R92, 90_conflicts.md C1). -/
def roundL (x : Fin 16 → Word) (j : Fin 80) (w : Work) : Work :=
  { a := w.e
    b := rol32 (w.a + fnL j w.b w.c w.d + x (selL j) + addL j) (rotL j) + w.e
    c := w.b
    d := rol32 w.c 10
    e := w.d }

/-- `ROUNDR(j)` (R91), with the 10-bit rotate (R92). -/
def roundR (x : Fin 16 → Word) (j : Fin 80) (w : Work) : Work :=
  { a := w.e
    b := rol32 (w.a + fnR j w.b w.c w.d + x (selR j) + addR j) (rotR j) + w.e
    c := w.b
    d := rol32 w.c 10
    e := w.d }

/-- One turn of R95's loop: `ROUNDL(j)`, then `ROUNDR(j)`. -/
def roundPair (x : Fin 16 → Word) (p : Work × Work) (j : Fin 80) : Work × Work :=
  (roundL x j p.1, roundR x j p.2)

/-! ### Combination and the whole transform (R94, R95) -/

/-- `COMBINE` (R94), all five right-hand sides over the old registers. -/
def combine (h : Regs) (l r : Work) : Regs :=
  { h0 := h.h1 + l.c + r.d
    h1 := h.h2 + l.d + r.e
    h2 := h.h3 + l.e + r.a
    h3 := h.h4 + l.a + r.b
    h4 := h.h0 + l.b + r.c }

/-- `COMPRESS(h, block)` (R95). -/
def compress (h : Regs) (blk : Block) : Regs :=
  let p := (List.finRange 80).foldl (roundPair (loadw blk)) (Work.ofRegs h, Work.ofRegs h)
  combine h p.1 p.2

/-! ### Feeding blocks -/

/-- The first 64 bytes of a sequence as a block, and the rest; none when fewer than 64 bytes wait (R111). -/
def splitBlock (t : List Byte) : Option (Block × List Byte) :=
  if h : 64 ≤ t.length then some (⟨t.take 64, by simp; omega⟩, t.drop 64) else none

/-- `while |t| >= 64: H <- COMPRESS(H, t[0..64]); t <- t[64..]`, at most `k` turns (R111). -/
def drainUpTo : Nat → Regs → List Byte → Regs × List Byte
  | 0, h, t => (h, t)
  | k + 1, h, t =>
    match splitBlock t with
    | some (blk, rest) => drainUpTo k (compress h blk) rest
    | none => (h, t)

/-- R111's loop run to its end: it turns `floor(|t| / 64)` times. -/
def drain (h : Regs) (t : List Byte) : Regs × List Byte := drainUpTo (t.length / 64) h t

end Sys2Proof.Machine
end

