-- ==== Sys2Proof/Machine/Digest.lean ====
section
/-! DEFINITION. `DIGEST` (42_digest.md R134 to R138). -/

namespace Sys2Proof.Machine

/-- The 20 bytes `DIGEST` delivers: the padded copy's blocks through `COMPRESS` in order, serialised (R134).
The context is an argument only, so nothing of it is written (R135). -/
def Context.digest (x : Context) : List Byte := ser (drain x.regs (pad x.buf x.len)).1

/-- `DIGEST c` (R134); the digest bytes precede the response (R70); with `OVF = 1` it runs the same (R138, log 6). -/
def execDigest (c : Nat) (s : State) : Outcome :=
  withContext c s fun x => andThen (emitDout x.digest s) fun t => respond (.done x.ovf) t

end Sys2Proof.Machine
end

