-- ==== Sys2Proof/Machine/Streaming.lean ====
section
/-! DEFINITION. The commands that write a context: `INIT`, `ABSORB`, `COPY` (41_streaming.md R110 to R117). -/

namespace Sys2Proof.Machine

/-- The operation level of `ABSORB` on one context (R12, R111): the payload is appended to the stream, every completed block
is compressed, the rest waits; `LEN` and `OVF` by R113. -/
def Context.absorb (x : Context) (data : List Byte) : Context where
  regs := (drain x.regs (x.buf ++ data)).1
  buf  := (drain x.regs (x.buf ++ data)).2
  len  := lenAfter x.len data.length
  ovf  := ovfAfter x.len x.ovf data.length

/-- One payload byte of the byte-serial form: append it, and when the buffer holds 64 bytes compress and empty it (R112). -/
def absorbByte (p : Regs × Memory) (v : Byte) : Regs × Memory :=
  let m := p.2.append v
  if h : m.length = 64 then (compress p.1 ⟨m, h⟩, []) else (p.1, m)

/-- The byte-serial form of `ABSORB`, the one the hardware follows (R112, 92_eei_decisions.md D20). -/
def Context.absorbSerial (x : Context) (data : List Byte) : Context where
  regs := (data.foldl absorbByte (x.regs, x.buf)).1
  buf  := (data.foldl absorbByte (x.regs, x.buf)).2
  len  := lenAfter x.len data.length
  ovf  := ovfAfter x.len x.ovf data.length

/-- `INIT c` (R110). -/
def execInit (c : Nat) (s : State) : Outcome :=
  withContext c s fun _ => respond (.done false) (s.setCtx c Context.fresh)

/-- `ABSORB c, data` with `n` bytes of `DIN` as `data` (R111 to R114). A bad context takes the payload too and drops it (R154). -/
def execAbsorb (c n : Nat) (s : State) : Outcome :=
  andThen (takePayload n s) fun p =>
    withContext c p.2 fun x => respond (.done (x.absorb p.1).ovf) (p.2.setCtx c (x.absorb p.1))

/-- `COPY d, src` (R116, R117). -/
def execCopy (d src : Nat) (s : State) : Outcome :=
  withContext d s fun _ => withContext src s fun y => respond (.done y.ovf) (s.setCtx d y)

end Sys2Proof.Machine
end

