-- ==== Sys2Proof/Machine/Dispatch.lean ====
section
/-! DEFINITION. One arm per command: the meaning each constructor of `Instr` has (opcode_table.json). -/

namespace Sys2Proof.Machine

def exec (i : Instr) (s : State) : Host.Outcome State Fault Refusal :=
  match i with
  | .init c => Sys2Proof.Machine.execInit c s
  | .absorb c n => Sys2Proof.Machine.execAbsorb c n s
  | .digest c => Sys2Proof.Machine.execDigest c s
  | .copy d src => Sys2Proof.Machine.execCopy d src s

end Sys2Proof.Machine
end

