-- ==== Sys2Proof/Machine/Fetch.lean ====
section
/-! DEFINITION. Accepting a command word (30_encoding.md R61, R68, R73), the host's offers (20_memory.md R49) and reset
(70_reset_and_hazards.md R170, R171). -/

namespace Sys2Proof.Machine

/-! ### Accepting a command word -/

/-- Runs the command a word spells, or raises the fault with which it spells none (R68, R151). -/
def runWord (w : Word) (s : State) : Outcome :=
  match decode w with
  | .ok i => exec i s
  | .error cause => raiseFault cause s

/-- The idle engine takes the oldest word of `CMD` and executes it to completion (R50); stuck while none is offered. -/
def acceptCommand (s : State) : Outcome :=
  match s.cmd with
  | [] => .fault .awaitCommand
  | w :: ws => runWord w (s.setCmd ws)

/-! ### Reset -/

/-- Reset released: every context of the file fresh, the input no longer asserted (R35, R170). -/
def freshContexts (s : State) : State :=
  { s with ctxs := List.replicate s.ctxs.length Context.fresh, rst := .released }

/-- The payload bytes the command at the head of `CMD` takes: none when it is no `ABSORB` (R67). -/
def headPayload (s : State) : Nat :=
  match s.cmd with
  | [] => 0
  | w :: _ => match decode w with
    | .ok i => payloadCount i
    | .error _ => 0

/-- The digest bytes the command at the head of `CMD` delivers: none when it is no successful `DIGEST` (R70). -/
def headDigest (s : State) : List Byte :=
  match s.cmd with
  | [] => []
  | w :: _ => match decode w with
    | .ok (.digest c) => match s.ctxs[c]? with
      | some x => x.digest
      | none => []
    | _ => []

/-- The command at the head of `CMD` is abandoned (R171): its word and `took` of its payload bytes are gone from the ports,
`gave` of its digest bytes have reached the host, no response is issued. -/
def abandonCommand (took gave : Nat) (s : State) : State :=
  { s with
    cmd := s.cmd.tail
    din := s.din.drop (min took (headPayload s))
    out := s.out ++ ((if s.doutReady then (headDigest s).take gave else []).map Beat.dout) }

/-! ### What the host does -/

/-- The host offers command words and payload bytes behind those already waiting (R49): how a program comes to run (R177). -/
def State.offer (s : State) (program : List (Word × List Byte)) : State :=
  { s with cmd := s.cmd ++ program.map Prod.fst, din := s.din ++ (program.map Prod.snd).flatten }

/-- The word is the next one the engine accepts: it stands at the head of `CMD`, `DIN` holds the payload it takes (zero bytes
behind those waiting, when fewer wait), the host takes beats and reset is released (log 10). -/
def placeNext (w : Word) (s : State) : State :=
  let t : State := { s with cmd := w :: s.cmd, rspReady := true, doutReady := true, rst := .released }
  { t with din := t.din ++ zeros (headPayload t - t.din.length) }

end Sys2Proof.Machine
end

