-- ==== Sys2Proof/Machine/Step.lean ====
section
/-! DEFINITION. One step of the machine: one whole command (00_scope.md R13), or one pulse of the reset input
(70_reset_and_hazards.md R170, R171). -/

namespace Sys2Proof.Machine

/-- One step. While reset is asserted the engine accepts and issues nothing (R170); a command in progress is abandoned (R171). -/
def step (s : State) : Host.Outcome State Fault Refusal :=
  match s.rst with
  | .released => acceptCommand s
  | .atIdle => .next (freshContexts s)
  | .inCommand took gave => .next (freshContexts (abandonCommand took gave s))

/-- `s` with the word that opcode_table.json numbers `w` placed where `step` takes its next command. -/
def State.withFetchWord (s : State) (nbits w : Nat) : State := placeNext (tableWord nbits w) s

end Sys2Proof.Machine
end

