-- ==== Sys2Proof/Machine/Assembler.lean ====
section
/-! DEFINITION. Assembler lines and pseudo-commands (30_encoding.md R71, R72): the written form of a command sequence and the
words and payloads it stands for. It is the host's side of the ports; no step of the engine uses it. -/

namespace Sys2Proof.Machine

/-- A payload as it is written (R71). -/
inductive Payload where
  /-- a double-quoted ASCII string, each character one byte -/
  | text (cs : List Char)
  /-- hex digit pairs, each pair one byte -/
  | hex (bs : List Byte)
  /-- a payload repeated -/
  | rep (p : Payload) (k : Nat)
deriving DecidableEq, Repr

/-- The bytes of a written payload, in stream order (R71). -/
def Payload.bytes : Payload → List Byte
  | .text cs => cs.map fun c => BitVec.ofNat 8 c.toNat
  | .hex bs => bs
  | .rep p k => (List.replicate k p.bytes).flatten

/-- A line of a command sequence: the four commands (R71) and the pseudo-commands (R72). -/
inductive Line where
  | init (c : Nat)
  | absorb (c : Nat) (p : Payload)
  | digest (c : Nat)
  | copy (d s : Nat)
  | finalize (c : Nat)
  | clone (d s : Nat)
  | hash (c : Nat) (p : Payload)
deriving DecidableEq, Repr

/-- The payload in consecutive pieces of at most 65535 bytes: itself when it fits one `ABSORB`, else pieces of 1 to 65535
bytes (R72); `k` bounds the number of cuts. -/
def piecesUpTo : Nat → List Byte → List (List Byte)
  | 0, data => [data]
  | k + 1, data => if data.length ≤ 65535 then [data] else data.take 65535 :: piecesUpTo k (data.drop 65535)

/-- R72's pieces of a payload of any length. -/
def pieces (data : List Byte) : List (List Byte) := piecesUpTo (data.length / 65535) data

/-- The `ABSORB` commands of a payload, each with the bytes it takes (R72). -/
def absorbLine (c : Nat) (data : List Byte) : List (Instr × List Byte) :=
  (pieces data).map fun piece => (Instr.absorb c piece.length, piece)

/-- The commands a line stands for, each with its payload (R71, R72). -/
def Line.expand : Line → List (Instr × List Byte)
  | .init c => [(.init c, [])]
  | .absorb c p => absorbLine c p.bytes
  | .digest c => [(.digest c, [])]
  | .copy d s => [(.copy d s, [])]
  | .finalize c => [(.digest c, [])]
  | .clone d s => [(.copy d s, [])]
  | .hash c p => (.init c, []) :: absorbLine c p.bytes ++ [(.digest c, [])]

/-- The context indices a line writes (R71). -/
def Line.indices : Line → List Nat
  | .init c => [c]
  | .absorb c _ => [c]
  | .digest c => [c]
  | .copy d s => [d, s]
  | .finalize c => [c]
  | .clone d s => [d, s]
  | .hash c _ => [c]

/-- The command words and payloads of a line (R71); none when an index does not fit its field. -/
def Line.assemble (l : Line) : Option (List (Word × List Byte)) :=
  if l.expand.all fun e => e.1.wf then some (l.expand.map fun e => (encode e.1, e.2)) else none

/-! ### Reading a written line (R71) -/

/-- The pieces a line of text is made of. -/
inductive Token where
  | word (cs : List Char)
  | quoted (cs : List Char)
  | comma
  | star
deriving DecidableEq, Repr

/-- Where the reader stands: between tokens or in a word (its characters reversed), in a quoted string, or in a comment. -/
inductive LexMode where
  | plain (cs : List Char)
  | quote (cs : List Char)
  | comment
deriving DecidableEq, Repr

/-- The token of the word read so far, if there is one. -/
def flushWord (cs : List Char) : List Token := if cs.isEmpty then [] else [.word cs.reverse]

/-- A blank or a tab (DESIGN CHOICE: R71 names no separator; log 14). -/
def isBlank (c : Char) : Bool := decide (c = ' ' ∨ c.toNat = 9)

/-- One character of a line: tokens so far and the mode (R71: no escape sequences; `;` starts a comment). -/
def lexChar (p : List Token × LexMode) (c : Char) : List Token × LexMode :=
  match p.2 with
  | .comment => p
  | .quote cs => if c.toNat = 34 then (p.1 ++ [.quoted cs.reverse], .plain []) else (p.1, .quote (c :: cs))
  | .plain cs =>
    if c.toNat = 34 then (p.1 ++ flushWord cs, .quote [])
    else if c = ';' then (p.1 ++ flushWord cs, .comment)
    else if c = ',' then (p.1 ++ flushWord cs ++ [.comma], .plain [])
    else if c = '*' then (p.1 ++ flushWord cs ++ [.star], .plain [])
    else if isBlank c then (p.1 ++ flushWord cs, .plain [])
    else (p.1, .plain (c :: cs))

/-- The tokens of a line; none when a quoted string is not closed. -/
def lexLine (cs : List Char) : Option (List Token) :=
  match cs.foldl lexChar ([], .plain []) with
  | (ts, .plain ws) => some (ts ++ flushWord ws)
  | (_, .quote _) => none
  | (ts, .comment) => some ts

/-- A decimal number. -/
def readDecimal (cs : List Char) : Option Nat :=
  if !cs.isEmpty && cs.all (fun c => decide (48 ≤ c.toNat ∧ c.toNat ≤ 57)) then
    some (cs.foldl (fun n c => 10 * n + (c.toNat - 48)) 0)
  else none

/-- A hex digit. -/
def readHexDigit (c : Char) : Option Nat :=
  let n := c.toNat
  if 48 ≤ n ∧ n ≤ 57 then some (n - 48)
  else if 97 ≤ n ∧ n ≤ 102 then some (n - 87)
  else if 65 ≤ n ∧ n ≤ 70 then some (n - 55)
  else none

/-- Hex digit pairs, each one byte; none for an odd number of digits. Blanks may stand before, between and behind pairs, not
inside one (DESIGN CHOICE: R71 speaks of hex digits only, 95_test_vectors.md section 3.8 writes `x"3f 40"`; log 14). -/
def readHex : List Char → Option (List Byte)
  | [] => some []
  | [a] => if isBlank a then some [] else none
  | a :: b :: cs =>
    if isBlank a then readHex (b :: cs)
    else match readHexDigit a, readHexDigit b, readHex cs with
      | some x, some y, some bs => some (BitVec.ofNat 8 (16 * x + y) :: bs)
      | _, _, _ => none

/-- A quoted string of ASCII characters. -/
def readText (cs : List Char) : Option Payload :=
  if cs.all (fun c => decide (c.toNat < 128)) then some (.text cs) else none

/-- The tokens of a payload: `"..."` or `x"..."`, optionally `* k` (R71). -/
def readPayload : List Token → Option Payload
  | [.quoted cs] => readText cs
  | [.word ['x'], .quoted cs] => (readHex cs).map .hex
  | [.quoted cs, .star, .word k] => (readDecimal k).bind fun n => (readText cs).map fun p => .rep p n
  | [.word ['x'], .quoted cs, .star, .word k] => (readDecimal k).bind fun n => (readHex cs).map fun bs => .rep (.hex bs) n
  | _ => none

/-- One written line: blank or a comment gives `some none`, a line that is no command gives none (R71, R72). -/
def readLine (cs : List Char) : Option (Option Line) :=
  match lexLine cs with
  | none => none
  | some [] => some none
  | some (.word m :: ts) =>
    match ts with
    | [.word a] => (readDecimal a).bind fun c =>
        if m = ['I', 'N', 'I', 'T'] then some (some (.init c))
        else if m = ['D', 'I', 'G', 'E', 'S', 'T'] then some (some (.digest c))
        else if m = ['F', 'I', 'N', 'A', 'L', 'I', 'Z', 'E'] then some (some (.finalize c))
        else none
    | .word a :: .comma :: rest => (readDecimal a).bind fun c =>
        if m = ['A', 'B', 'S', 'O', 'R', 'B'] then (readPayload rest).map fun p => some (.absorb c p)
        else if m = ['H', 'A', 'S', 'H'] then (readPayload rest).map fun p => some (.hash c p)
        else match rest with
          | [.word b] => (readDecimal b).bind fun d =>
              if m = ['C', 'O', 'P', 'Y'] then some (some (.copy c d))
              else if m = ['C', 'L', 'O', 'N', 'E'] then some (some (.clone c d))
              else none
          | _ => none
    | _ => none
  | some _ => none

end Sys2Proof.Machine
end

