-- ==== Sys2Proof/Safety.lean ====
section
/-! DEFINITION. What claims are stated in: the stream a context has absorbed, the published function, and the invariants of
10_state.md R26 and 00_scope.md R6. -/

namespace Sys2Proof.Machine

/-- The complete 64-byte blocks of a byte stream, in order: block `i` is the bytes `64 i` to `64 i + 63` (R26). -/
def blocksOf (m : List Byte) : List Block :=
  (List.range (m.length / 64)).filterMap fun i => (splitBlock (m.drop (64 * i))).map Prod.fst

/-- `COMPRESS` folded over the complete blocks of a stream (R26 invariant 3). -/
def foldBlocks (h : Regs) (m : List Byte) : Regs := (blocksOf m).foldl compress h

/-- The incomplete tail of a stream, its last `|m| mod 64` bytes (R26 invariant 3). -/
def tailOf (m : List Byte) : List Byte := m.drop (64 * (m.length / 64))

/-- The digest of a whole message, written from R134's closing formula: pad it, fold `COMPRESS` from `IV`, serialise. -/
def ripemd160 (m : List Byte) : List Byte :=
  ser (foldBlocks iv (m ++ [0x80#8] ++ zeros (zeroCount m.length) ++ bytes64 (BitVec.ofNat 64 (8 * m.length))))

/-- The context has absorbed exactly the stream `m` since it was fresh: R26's invariants 1 to 3, and R25's `OVF`.
`LEN` equals the length modulo 2^64, so the length itself while `OVF = 0`. -/
structure Context.Holds (x : Context) (m : List Byte) : Prop where
  regs : x.regs = foldBlocks iv m
  buf  : x.buf = tailOf m
  len  : x.len = BitVec.ofNat 64 m.length
  ovf  : x.ovf = true ↔ 2 ^ 61 ≤ m.length

/-- Every context `c` of the file has absorbed the stream `σ c`. -/
def State.Tracks (s : State) (σ : Nat → List Byte) : Prop :=
  ∀ (c : Nat) (x : Context), s.ctxs[c]? = some x → x.Holds (σ c)

/-- The streams with slot `c` replaced. -/
def setStream (σ : Nat → List Byte) (c : Nat) (m : List Byte) : Nat → List Byte := fun k => if k = c then m else σ k

/-- What a legal command does to the streams (S1's four operations): `INIT` empties one, `ABSORB` extends one by its payload,
`DIGEST` changes none, `COPY` copies one (R110, R111, R116, R135). -/
def streamsAfter (σ : Nat → List Byte) (i : Instr) (data : List Byte) : Nat → List Byte :=
  match i with
  | .init c => setStream σ c []
  | .absorb c _ => setStream σ c (σ c ++ data)
  | .digest _ => σ
  | .copy d s => setStream σ d (σ s)

/-- The commands of a sequence run one after the other; a stop of one is the stop of the whole (R50). -/
def execAll : List Instr → State → Outcome
  | [], s => .next s
  | i :: is, s => andThen (exec i s) (execAll is)

/-- The number of contexts is a legal `NCTX` (R6). -/
def State.LegalSize (s : State) : Prop := Config.minContexts ≤ s.nctx ∧ s.nctx ≤ Config.maxContexts

/-- The invariant of the engine between steps (R6, R26): a legal number of contexts, each holding some absorbed stream. -/
def State.Inv (s : State) : Prop := s.LegalSize ∧ ∀ (c : Nat) (x : Context), s.ctxs[c]? = some x → ∃ m, x.Holds m

/-- The canonical form of the storage: every buffer holds at most 63 bytes (R23, R26). -/
def State.BuffersShort (s : State) : Prop := ∀ (c : Nat) (x : Context), s.ctxs[c]? = some x → x.buf.wf

/-- The host takes whatever the engine issues (R174). -/
def State.HostTakes (s : State) : Prop := s.rspReady = true ∧ s.doutReady = true

/-- The response words among beats, in order. -/
def rspOf (bs : List Beat) : List Word :=
  bs.filterMap fun b => match b with
    | .rsp w => some w
    | .dout _ => none

/-- The digest bytes among beats, in order. -/
def doutOf (bs : List Beat) : List Byte :=
  bs.filterMap fun b => match b with
    | .rsp _ => none
    | .dout v => some v

end Sys2Proof.Machine
end

