-- ==== Sys2Proof/Certificates/Slice0/Obligations.lean ====
section
/-! DEFINITION. The statements for the provers, one definition each; each docstring names the rules of spec/ it formalises, or
says that it rests on a choice of the model. Statements about all states hold for every number of contexts. -/

open Sys2Proof Sys2Proof.Machine

/-! ## Encoding -/

/-- 95_test_vectors.md section 3.9, words written out from the encodings of R61 to R65. -/
def Obligations.SpelledWordsDecode : Prop :=
  decode 0x01000000#32 = .ok (.init 0) ∧ decode 0x01010000#32 = .ok (.init 1) ∧
  decode 0x02000003#32 = .ok (.absorb 0 3) ∧ decode 0x0201FFFF#32 = .ok (.absorb 1 65535) ∧
  decode 0x03FF0000#32 = .ok (.digest 255) ∧ decode 0x04FFFE00#32 = .ok (.copy 255 254) ∧
  decode 0x00000000#32 = .error .illegalOpcode ∧ decode 0xFF123456#32 = .error .illegalOpcode ∧
  decode 0x03000100#32 = .error .reservedField ∧ decode 0x04010001#32 = .error .reservedField ∧
  verdict 2 0x01020001#32 = .faulted .reservedField ∧ verdict 2 0x04000200#32 = .faulted .badContext ∧
  verdict 2 0x02050003#32 = .faultedAbsorb .badContext 3

/-- Every well-formed command is read back from its word with every operand (R61 to R66). -/
def Obligations.DecodeOfEncodeIsIdentity : Prop :=
  ∀ i : Instr, i.wf = true → decode (encode i) = .ok i

/-- Every word that spells a command is that command's word, and the command is well formed (R61 to R66). -/
def Obligations.EncodeOfDecodeIsIdentity : Prop :=
  ∀ (w : Word) (i : Instr), decode w = .ok i → encode i = w ∧ i.wf = true

/-- R65: the opcode map. A word spells a row's command exactly when it matches the row; no word matches two rows; the opcodes
of no row spell no command; a matching word still faults if a context index in it is `NCTX` or more. -/
def Obligations.OpcodeMapRows : Prop :=
  ∀ w : Word,
    ((w &&& 0xFF00FFFF#32 = 0x01000000#32 ↔ ∃ c, decode w = .ok (.init c)) ∧
     (w &&& 0xFF000000#32 = 0x02000000#32 ↔ ∃ c n, decode w = .ok (.absorb c n)) ∧
     (w &&& 0xFF00FFFF#32 = 0x03000000#32 ↔ ∃ c, decode w = .ok (.digest c)) ∧
     (w &&& 0xFF0000FF#32 = 0x04000000#32 ↔ ∃ d s, decode w = .ok (.copy d s))) ∧
    (∀ i j : Instr, (rowOf i).spells w = true → (rowOf j).spells w = true → rowOf i = rowOf j) ∧
    ((opcOf w = 0 ∨ 5 ≤ opcOf w) ↔ decode w = .error .illegalOpcode) ∧
    (∀ (nctx : Nat) (i : Instr), decode w = .ok i → legalIn nctx i = false →
      verdict nctx w = .faulted .badContext ∨ ∃ n, verdict nctx w = .faultedAbsorb .badContext n)

/-- R68: exactly which words are illegal, with which cause, for every `NCTX`; all others spell a command with legal operands. -/
def Obligations.IllegalWordsAndCauses : Prop :=
  (∀ (nctx : Nat) (w : Word),
    (verdict nctx w = .faulted .illegalOpcode ↔ opcOf w = 0 ∨ 5 ≤ opcOf w) ∧
    (verdict nctx w = .faulted .reservedField ↔
      ((opcOf w = 1 ∨ opcOf w = 3) ∧ argOf w ≠ 0) ∨ (opcOf w = 4 ∧ lowOf w ≠ 0)) ∧
    ((verdict nctx w = .faulted .badContext ∨ ∃ n, verdict nctx w = .faultedAbsorb .badContext n) ↔
      (1 ≤ opcOf w ∧ opcOf w ≤ 4) ∧ ¬ ((opcOf w = 1 ∨ opcOf w = 3) ∧ argOf w ≠ 0) ∧ ¬ (opcOf w = 4 ∧ lowOf w ≠ 0) ∧
        (nctx ≤ ctxOf w ∨ (opcOf w = 4 ∧ nctx ≤ srcOf w))) ∧
    ((∃ i, verdict nctx w = .command i ∧ decode w = .ok i ∧ legalIn nctx i = true) ∨
      (∃ cause, verdict nctx w = .faulted cause) ∨ ∃ n, verdict nctx w = .faultedAbsorb .badContext n)) ∧
  ∀ nctx : Nat, verdict nctx 0x00000000#32 = .faulted .illegalOpcode ∧ verdict nctx 0xFFFFFFFF#32 = .faulted .illegalOpcode

/-- R71, R72: a line assembles exactly when its indices fit a command word; the words decode to the commands the line stands
for, and each comes with exactly the payload bytes its command takes. The commands are R71's for the four commands and R72's
for the pseudo-commands; an `ABSORB` line stands for one `ABSORB` when its payload fits one, else for one per piece. -/
def Obligations.AssembledLinesDecode : Prop :=
  (∀ (l : Line) (ws : List (Word × List Byte)), l.assemble = some ws →
    ws.map (fun e => decode e.1) = l.expand.map (fun e => .ok e.1) ∧
    ws.map Prod.snd = l.expand.map Prod.snd ∧
    ∀ e ∈ l.expand, payloadCount e.1 = e.2.length) ∧
  (∀ l : Line, (∃ ws, l.assemble = some ws) ↔ ∀ c ∈ l.indices, c < 256) ∧
  (∀ c d src : Nat,
    (Line.init c).expand = [(.init c, [])] ∧ (Line.digest c).expand = [(.digest c, [])] ∧
    (Line.copy d src).expand = [(.copy d src, [])] ∧ (Line.finalize c).expand = [(.digest c, [])] ∧
    (Line.clone d src).expand = [(.copy d src, [])]) ∧
  ∀ (c : Nat) (p : Payload),
    (p.bytes.length ≤ 65535 → (Line.absorb c p).expand = [(.absorb c p.bytes.length, p.bytes)]) ∧
    (∃ ps : List (List Byte), (Line.absorb c p).expand = ps.map (fun piece => (.absorb c piece.length, piece)) ∧
      ps.flatten = p.bytes ∧
      ∀ piece ∈ ps, piece.length ≤ 65535 ∧ (65535 < p.bytes.length → 1 ≤ piece.length)) ∧
    (Line.hash c p).expand = [(.init c, [])] ++ (Line.absorb c p).expand ++ [(.digest c, [])]

/-- R72: a payload of any length is cut into consecutive pieces that one `ABSORB` each can take, and absorbing them one after
the other is absorbing the whole (R72's ground is R115, whose statement about the whole state is the spec's own inference). -/
def Obligations.LongAbsorbSplitsIntoPieces : Prop :=
  ∀ data : List Byte,
    (pieces data).flatten = data ∧
    (∀ p ∈ pieces data, p.length ≤ 65535 ∧ (65535 < data.length → 1 ≤ p.length)) ∧
    ∀ x : Context, (pieces data).foldl Context.absorb x = x.absorb data

/-! ## The step -/

/-- R13, R50: when the word at the head of `CMD` decodes to a well-formed command, the step is that command's effect on the
state from which the word is gone. -/
def Obligations.StepRunsDecodedCommand : Prop :=
  ∀ (s : State) (w : Word) (ws : List Word) (i : Instr), s.rst = .released → s.cmd = w :: ws → decode w = .ok i →
    i.wf = true → step s = exec i (s.setCmd ws)

/-- R153, R154: a word that R73's decoder faults changes no context, delivers nothing on `DOUT`, answers with its cause (1, 2
or 3) and leaves the engine ready for the next word; only a bad-context `ABSORB` takes payload bytes, exactly `COUNT`. -/
def Obligations.FaultingWordsLeaveNoTrace : Prop :=
  ∀ (s : State) (w : Word) (ws : List Word), s.rst = .released → s.cmd = w :: ws → s.rspReady = true →
    (∀ cause, verdict s.nctx w = .faulted cause →
      step s = .next { s with
        cmd := ws
        out := s.out ++ [.rsp (match cause with
          | .illegalOpcode => 1#32
          | .reservedField => 2#32
          | .badContext => 3#32)] }) ∧
    (∀ cause n, verdict s.nctx w = .faultedAbsorb cause n →
      opcOf w = 2 ∧ n = argOf w ∧ cause = .badContext ∧
      (n ≤ s.din.length → step s = .next { s with cmd := ws, din := s.din.drop n, out := s.out ++ [.rsp 3#32] }))

/-- R33, R150: a command whose payload is there and whose outputs are taken completes, whatever earlier commands did and
whatever the contexts hold. -/
def Obligations.SuppliedCommandCompletes : Prop :=
  ∀ (s : State) (w : Word) (ws : List Word), s.rst = .released → s.cmd = w :: ws → s.HostTakes →
    (∀ i, decode w = .ok i → payloadCount i ≤ s.din.length) → ∃ t, step s = .next t ∧ t.cmd = ws

/-- R13, R170, R173, R174: the step stops exactly while a hold of the host lasts: no word offered, payload missing, response
not taken, or digest bytes not taken. It refuses nothing. -/
def Obligations.StepStopsOnlyOnHostHolds : Prop :=
  ∀ s : State,
    (∀ r, step s ≠ .refused r) ∧
    ((∃ r, step s = .fault r) ↔
      s.rst = .released ∧
        (s.cmd = [] ∨ ∃ w ws, s.cmd = w :: ws ∧
          (s.rspReady = false ∨
            (opcOf w = 2 ∧ s.din.length < argOf w) ∨
            ∃ c, decode w = .ok (.digest c) ∧ c < s.nctx ∧ s.doutReady = false)))

/-- R69, R70, R137: every completed step issues exactly one response word, one of five; twenty digest bytes stand before it
when the word is a legal `DIGEST` and none otherwise; bit 8 is `OVF` of the context in `CTX` after the command. -/
def Obligations.OneResponsePerCommand : Prop :=
  ∀ (s t : State) (w : Word) (ws : List Word), s.rst = .released → s.cmd = w :: ws → step s = .next t →
    ∃ (bs : List Byte) (v : Word), t.out = s.out ++ bs.map Beat.dout ++ [.rsp v] ∧
      (v = 0x000#32 ∨ v = 0x100#32 ∨ v = 1#32 ∨ v = 2#32 ∨ v = 3#32) ∧
      (∀ i, verdict s.nctx w = .command i →
        ∃ y, t.ctxs[ctxOf w]? = some y ∧ v = (if y.ovf then 0x100#32 else 0x000#32)) ∧
      (∀ cause, (verdict s.nctx w = .faulted cause ∨ ∃ n, verdict s.nctx w = .faultedAbsorb cause n) →
        v.toNat = causeCode cause) ∧
      ((∃ c, verdict s.nctx w = .command (.digest c)) → bs.length = 20) ∧
      ((¬ ∃ c, verdict s.nctx w = .command (.digest c)) → bs = [])

/-- R67: a completed step has taken the first `COUNT` bytes of `DIN` for an `ABSORB` word, faulted or not, and none for any
other word; all of them had arrived. -/
def Obligations.PayloadBytesTaken : Prop :=
  ∀ (s t : State) (w : Word) (ws : List Word), s.rst = .released → s.cmd = w :: ws → step s = .next t →
    (opcOf w = 2 → argOf w ≤ s.din.length ∧ t.din = s.din.drop (argOf w)) ∧ (opcOf w ≠ 2 → t.din = s.din)

/-! ## Reset -/

/-- R35: after reset every context holds the initial values, which are those `INIT` produces; for every `NCTX`. -/
def Obligations.ResetContextsAreFresh : Prop :=
  ∀ n c : Nat, c < n →
    (State.resetWith n).ctxs[c]? =
      some ⟨⟨0x67452301#32, 0xEFCDAB89#32, 0x98BADCFE#32, 0x10325476#32, 0xC3D2E1F0#32⟩, [], 0#64, false⟩ ∧
    ∀ s : State, c < s.nctx → s.rspReady = true →
      ∃ t, exec (.init c) s = .next t ∧ t.ctxs[c]? = (State.resetWith n).ctxs[c]?

/-- R170, R171 (the reset input as a pulse of one step is the model's form: log 5): whatever the engine was doing, afterwards
every context is fresh and the engine runs; the step issues no response; a pulse between commands takes and issues nothing; a
pulse during a command drops its word, the payload bytes it had taken and the digest bytes it had not yet transferred. -/
def Obligations.ResetPulseRestoresContexts : Prop :=
  ∀ s : State, s.rst ≠ .released →
    ∃ t, step s = .next t ∧ t.nctx = s.nctx ∧ t.rst = .released ∧ (∀ c, c < s.nctx → t.ctxs[c]? = some Context.fresh) ∧
      rspOf t.out = rspOf s.out ∧
      (s.rst = .atIdle → t.cmd = s.cmd ∧ t.din = s.din ∧ t.out = s.out) ∧
      (∀ took gave i ws, s.rst = .inCommand took gave → s.cmd = encode i :: ws → i.wf = true →
        t.cmd = ws ∧ t.din = s.din.drop (min took (payloadCount i)) ∧
        (∀ c x, i = .digest c → s.ctxs[c]? = some x → s.doutReady = true →
          t.out = s.out ++ (x.digest.take gave).map Beat.dout) ∧
        ((∀ c, i ≠ .digest c) → t.out = s.out))

/-! ## INIT and COPY -/

/-- R110: `INIT c` completes: context `c` holds the initial constants, nothing in the buffer, zero length and no overflow,
whatever it held, nothing else changes, and the response is `OK`; an index of `NCTX` or more faults with cause 3. -/
def Obligations.InitMakesContextFresh : Prop :=
  ∀ (s : State) (c : Nat), s.rspReady = true →
    (c < s.nctx → exec (.init c) s = .next { s with
      ctxs := s.ctxs.set c
        ⟨⟨0x67452301#32, 0xEFCDAB89#32, 0x98BADCFE#32, 0x10325476#32, 0xC3D2E1F0#32⟩, [], 0#64, false⟩
      out := s.out ++ [.rsp 0#32] }) ∧
    (s.nctx ≤ c → exec (.init c) s = .next { s with out := s.out ++ [.rsp 3#32] })

/-- R116: `COPY d, src` completes: context `d` takes every field of context `src`, nothing else changes, and the response
reports the copied `OVF`; an index of `NCTX` or more faults with cause 3. -/
def Obligations.CopyCopiesWholeContext : Prop :=
  ∀ (s : State) (d src : Nat), s.rspReady = true →
    (∀ y : Context, d < s.nctx → s.ctxs[src]? = some y →
      exec (.copy d src) s = .next { s with
        ctxs := s.ctxs.set d ⟨y.regs, y.buf, y.len, y.ovf⟩
        out := s.out ++ [.rsp (if y.ovf then 0x100#32 else 0#32)] }) ∧
    (s.nctx ≤ d ∨ s.nctx ≤ src → exec (.copy d src) s = .next { s with out := s.out ++ [.rsp 3#32] })

/-- R117: `COPY d, d` is legal, changes nothing and responds `OK` with `OVF[d]` (the spec's own inference, "rule R116 with
`d = s` assigns every field its own value"). -/
def Obligations.CopyOntoItselfChangesNothing : Prop :=
  ∀ (s : State) (d : Nat) (x : Context), s.rspReady = true → s.ctxs[d]? = some x →
    exec (.copy d d) s = .next { s with out := s.out ++ [.rsp (if x.ovf then 0x100#32 else 0#32)] }

/-! ## ABSORB -/

/-- R111: `ABSORB c, data` completes: the blocks of the buffer followed by the payload are compressed in stream order, the
rest waits in the buffer, `LEN` and `OVF` follow R113, nothing else changes; `floor((FILL + n) / 64)` compressions, new fill
`(FILL + n) mod 64` (the spec's own inference "from the loop"); a context of `NCTX` or more faults with cause 3 and the payload is discarded. -/
def Obligations.AbsorbCompressesCompletedBlocks : Prop :=
  ∀ (s : State) (c n : Nat), s.rspReady = true → n ≤ s.din.length →
    (∀ x : Context, s.ctxs[c]? = some x →
      let t := x.buf ++ s.din.take n
      let ovf := x.ovf || decide (2 ^ 61 ≤ x.len.toNat + n)
      exec (.absorb c n) s = .next { s with
        ctxs := s.ctxs.set c
          ⟨(blocksOf t).foldl compress x.regs, t.drop (64 * (t.length / 64)), BitVec.ofNat 64 (x.len.toNat + n), ovf⟩
        din := s.din.drop n
        out := s.out ++ [.rsp (if ovf then 0x100#32 else 0#32)] } ∧
      (blocksOf t).length = (x.fill + n) / 64 ∧ (t.drop (64 * (t.length / 64))).length = (x.fill + n) % 64) ∧
    (s.nctx ≤ c → exec (.absorb c n) s = .next { s with din := s.din.drop n, out := s.out ++ [.rsp 3#32] })

/-- R113: the length update, with the natural-number sum. -/
def Obligations.AbsorbUpdatesLengthAndOverflow : Prop :=
  ∀ (s : State) (c n : Nat) (x : Context), s.rspReady = true → n ≤ s.din.length → s.ctxs[c]? = some x →
    ∃ t y, exec (.absorb c n) s = .next t ∧ t.ctxs[c]? = some y ∧
      y.len.toNat = (x.len.toNat + n) % 2 ^ 64 ∧
      (y.ovf = true ↔ x.ovf = true ∨ 2 ^ 61 ≤ x.len.toNat + n)

/-- R114: `ABSORB c, ""` takes no byte, changes no field of any context that holds a stream, responds `OK` with the current
`OVF[c]`, and still faults when the index is `NCTX` or more (the spec's own inference, "rule R111 with `n = 0`"). -/
def Obligations.EmptyAbsorbChangesNothing : Prop :=
  ∀ (s : State) (c : Nat), s.rspReady = true →
    (∀ (x : Context) (m : List Byte), s.ctxs[c]? = some x → x.Holds m →
      exec (.absorb c 0) s = .next { s with out := s.out ++ [.rsp (if x.ovf then 0x100#32 else 0#32)] }) ∧
    (s.nctx ≤ c → exec (.absorb c 0) s = .next { s with out := s.out ++ [.rsp 3#32] })

/-- R21, R111: a payload that completes no block changes no chaining register and is appended to the buffer. -/
def Obligations.ShortAbsorbOnlyFillsBuffer : Prop :=
  ∀ (s : State) (c n : Nat) (x : Context), s.rspReady = true → n ≤ s.din.length → s.ctxs[c]? = some x →
    x.fill + n < 64 →
    ∃ t y, exec (.absorb c n) s = .next t ∧ t.ctxs[c]? = some y ∧ y.regs = x.regs ∧ y.buf = x.buf ++ s.din.take n

/-- R112: the byte-serial form that the hardware follows is equivalent to R111's batch form (the spec's own inference, "by
induction on `n`"). -/
def Obligations.ByteSerialAbsorbEqualsBatch : Prop :=
  ∀ (x : Context) (data : List Byte), x.buf.wf → x.absorbSerial data = x.absorb data

/-- R115: two `ABSORB` commands on one context leave the state that one of the joined payload leaves, at every split point;
and for payloads of any length the contexts agree, hence the digests (about the whole state it is the spec's own inference:
"rule R112 processes bytes one by one with no memory of command boundaries"). -/
def Obligations.SplitAbsorbEqualsJoined : Prop :=
  (∀ (x : Context) (a b : List Byte),
    (x.absorb a).absorb b = x.absorb (a ++ b) ∧ ((x.absorb a).absorb b).digest = (x.absorb (a ++ b)).digest) ∧
  ∀ (s : State) (c k n : Nat), s.rspReady = true → c < s.nctx → k + n ≤ s.din.length →
    ∃ s1 s2 t, exec (.absorb c k) s = .next s1 ∧ exec (.absorb c n) s1 = .next s2 ∧
      exec (.absorb c (k + n)) s = .next t ∧ s2.ctxs = t.ctxs ∧ s2.din = t.din

/-! ## DIGEST -/

/-- R134: `DIGEST c` completes: the padded copy has one or two blocks, they go through `COMPRESS` in order starting from the
registers, the five results are delivered on `DOUT` before the response, and no context is written; an index of `NCTX` or more
faults with cause 3 and nothing on `DOUT`. -/
def Obligations.DigestPadsCompressesAndDelivers : Prop :=
  ∀ (s : State) (c : Nat), s.HostTakes →
    (∀ x : Context, s.ctxs[c]? = some x → x.buf.wf →
      let p := pad x.buf x.len
      ∃ b0 b1 : Block, b0.val = p.take 64 ∧ (p.length = 64 ∨ p.length = 128 ∧ b1.val = p.drop 64) ∧
        exec (.digest c) s = .next { s with
          out := s.out ++
            (ser (if p.length = 128 then compress (compress x.regs b0) b1 else compress x.regs b0)).map Beat.dout ++
            [.rsp (if x.ovf then 0x100#32 else 0#32)] }) ∧
    (s.nctx ≤ c → exec (.digest c) s = .next { s with out := s.out ++ [.rsp 3#32] })

/-- R135, R137: `DIGEST c` leaves every field of every context as it was, takes no payload, and delivers exactly 20 bytes. -/
def Obligations.DigestIsNonDestructive : Prop :=
  ∀ (s : State) (c : Nat), s.HostTakes → c < s.nctx →
    ∃ (t : State) (bs : List Byte) (v : Word), exec (.digest c) s = .next t ∧ t.ctxs = s.ctxs ∧ t.din = s.din ∧
      t.out = s.out ++ bs.map Beat.dout ++ [.rsp v] ∧ bs.length = Config.digestBytes

/-- R136: removing a `DIGEST` changes no later state and no other command's result; in particular a second `DIGEST` repeats
the first one's beats (the spec's own inference "from rule R135"). -/
def Obligations.RemovingDigestChangesNothing : Prop :=
  ∀ (s t u : State) (c : Nat) (i : Instr), exec (.digest c) s = .next t → exec i s = .next u →
    ∃ v bs, exec i t = .next v ∧ v.ctxs = u.ctxs ∧ v.din = u.din ∧ u.out = s.out ++ bs ∧ v.out = t.out ++ bs

/-- R138: with `OVF = 1` the command still delivers 20 bytes, with the bit length modulo 2^64 in the padding, changes no
context, and responds `0x00000100` (the spec's decision D5, outside S1's contract: log 6). -/
def Obligations.OverflowedDigestStillDelivers : Prop :=
  ∀ (s : State) (c : Nat) (x : Context), s.HostTakes → s.ctxs[c]? = some x → x.ovf = true →
    ∃ (t : State) (bs : List Byte), exec (.digest c) s = .next t ∧ t.ctxs = s.ctxs ∧ bs.length = 20 ∧
      t.out = s.out ++ bs.map Beat.dout ++ [.rsp 0x00000100#32] ∧
      bs = ser (foldBlocks x.regs
        (x.buf ++ [0x80#8] ++ zeros (zeroCount x.buf.length) ++ bytes64 (BitVec.ofNat 64 (8 * x.len.toNat % 2 ^ 64))))

/-- R134's example, S1's one printed vector: the digest of a fresh context. -/
def Obligations.FreshDigestIsEmptyMessageVector : Prop :=
  Context.fresh.digest =
    [0x9c, 0x11, 0x85, 0xa5, 0xc5, 0xe9, 0xfc, 0x54, 0x61, 0x28, 0x08, 0x97, 0x7e, 0xe8, 0xf5, 0x48, 0xb2, 0x25, 0x8d, 0x31]

/-! ## What commands leave alone -/

/-- R52, R27: the frame of every command. Every context but the one it writes is unchanged, buffer bytes included, and the
source of a `COPY` and the context of a `DIGEST` are; the number of contexts, the words waiting on `CMD`, the host's signals
and the reset input are unchanged; `DIN` loses exactly the payload; `out` only grows. Commands that name no context in common
commute: same contexts and same beats of each command in either order (the spec's own inference, "each command's function
reads and writes only its named contexts"). -/
def Obligations.CommandsTouchOnlyNamedContexts : Prop :=
  (∀ (i : Instr) (s t : State), exec i s = .next t →
    (∀ k : Nat, writtenContext i ≠ some k → t.ctxs[k]? = s.ctxs[k]?) ∧
    t.nctx = s.nctx ∧ t.cmd = s.cmd ∧ t.din = s.din.drop (payloadCount i) ∧
    t.rspReady = s.rspReady ∧ t.doutReady = s.doutReady ∧ t.rst = s.rst ∧ ∃ bs, t.out = s.out ++ bs) ∧
  ∀ (i j : Instr) (s s1 s2 t1 t2 : State) (di dj : List Byte),
    (∀ c ∈ namedContexts i, c ∉ namedContexts j) →
    exec i (s.setDin di) = .next s1 → exec j (s1.setDin dj) = .next s2 →
    exec j (s.setDin dj) = .next t1 → exec i (t1.setDin di) = .next t2 →
    s2.ctxs = t2.ctxs ∧
    ∃ bi bj, s1.out = s.out ++ bi ∧ s2.out = s1.out ++ bj ∧ t1.out = s.out ++ bj ∧ t2.out = t1.out ++ bi

/-- R32, R52: what a command does to the contexts it names and what it delivers depends on those contexts and its payload
alone (and on `NCTX`, by which it may fault); nothing of any other context and of no `DIN` byte behind the payload can be
learnt from it (R32 is the spec's own inference). From two states that agree on these, where the command completes in one, its
effect in the other is the same, and there it completes as well if the host takes outputs. Agreeing payloads include that all
of it has arrived in both: a command that completes has its payload. -/
def Obligations.CommandsLearnOnlyNamedContexts : Prop :=
  ∀ (i : Instr) (s s' t : State), s.nctx = s'.nctx → s.din.take (payloadCount i) = s'.din.take (payloadCount i) →
    (∀ c ∈ namedContexts i, s.ctxs[c]? = s'.ctxs[c]?) → exec i s = .next t →
    (∀ t', exec i s' = .next t' →
      (∀ c ∈ namedContexts i, t.ctxs[c]? = t'.ctxs[c]?) ∧ t.din = s.din.drop (payloadCount i) ∧
      t'.din = s'.din.drop (payloadCount i) ∧ ∃ bs, t.out = s.out ++ bs ∧ t'.out = s'.out ++ bs) ∧
    (s'.HostTakes → ∃ t', exec i s' = .next t')

/-- R47: `INIT`, `DIGEST` and `COPY` are idempotent on the contexts. -/
def Obligations.InitDigestCopyIdempotent : Prop :=
  ∀ (i : Instr) (s t : State), (∀ c n, i ≠ .absorb c n) → exec i s = .next t →
    ∃ u, exec i t = .next u ∧ u.ctxs = t.ctxs

/-- R25: `OVF` is cleared only by `INIT` and by being the destination of a `COPY` from a context whose `OVF` is 0. -/
def Obligations.OverflowFlagIsSticky : Prop :=
  ∀ (i : Instr) (s t : State) (c : Nat) (x : Context), exec i s = .next t → s.ctxs[c]? = some x → x.ovf = true →
    i ≠ .init c → (∀ src y, i = .copy c src → s.ctxs[src]? = some y → y.ovf = true) →
    ∃ z, t.ctxs[c]? = some z ∧ z.ovf = true

/-! ## The transform -/

/-- R82: the five functions bit by bit. Bit `4 x + 2 y + z` of a function's byte is its truth-table entry (a passage of the spec
from general knowledge: log 7). -/
def Obligations.BooleanFunctionsTruthTable : Prop :=
  ∀ (x y z : Word) (i : Nat), i < 32 →
    let at3 := 4 * (x.getLsbD i).toNat + 2 * (y.getLsbD i).toNat + (z.getLsbD i).toNat
    (f1 x y z).getLsbD i = Nat.testBit 0x96 at3 ∧ (f2 x y z).getLsbD i = Nat.testBit 0xCA at3 ∧
    (f3 x y z).getLsbD i = Nat.testBit 0x59 at3 ∧ (f4 x y z).getLsbD i = Nat.testBit 0xE4 at3 ∧
    (f5 x y z).getLsbD i = Nat.testBit 0x2D at3

/-- R97: the structural laws of the tables. Each selection row follows from the row before by `rho`, the first rows are the
identity and `pi`; both lines take their shifts from one base table; the constants are integer parts of roots (a passage of the spec from general
knowledge: log 7). -/
def Obligations.TablesObeyStructuralLaws : Prop :=
  let rho : Vector (Fin 16) 16 := #v[7, 4, 13, 1, 10, 6, 15, 3, 12, 0, 9, 5, 2, 14, 11, 8]
  let base : Vector (Vector Nat 16) 5 := #v[
    #v[11, 14, 15, 12, 5, 8, 7, 9, 11, 13, 14, 15, 6, 7, 9, 8],
    #v[12, 13, 11, 15, 6, 9, 9, 7, 12, 15, 11, 13, 7, 8, 7, 7],
    #v[13, 15, 14, 11, 7, 7, 6, 8, 13, 14, 13, 12, 5, 5, 6, 9],
    #v[14, 11, 12, 14, 8, 6, 5, 5, 15, 12, 15, 14, 9, 9, 8, 6],
    #v[15, 12, 13, 13, 9, 5, 8, 6, 14, 11, 12, 11, 8, 6, 5, 5]]
  let primes : Vector Nat 4 := #v[2, 3, 5, 7]
  (∀ j : Fin 80, j.val < 16 → (selL j).val = j.val ∧ (selR j).val = (9 * j.val + 5) % 16) ∧
  (∀ j j' : Fin 80, j'.val = j.val + 16 → selL j' = rho.get (selL j) ∧ selR j' = rho.get (selR j)) ∧
  (∀ j : Fin 80, rotL j = (base.get (subRound j)).get (selL j) ∧ rotR j = (base.get (subRound j)).get (selR j)) ∧
  ∀ (j : Fin 80) (k : Fin 4),
    ((subRound j).val = k.val + 1 →
      (addL j).toNat ^ 2 ≤ 2 ^ 60 * primes.get k ∧ 2 ^ 60 * primes.get k < ((addL j).toNat + 1) ^ 2) ∧
    ((subRound j).val = k.val →
      (addR j).toNat ^ 3 ≤ 2 ^ 90 * primes.get k ∧ 2 ^ 90 * primes.get k < ((addR j).toNat + 1) ^ 3)

/-- R81, R41: message word `i` of a block is its bytes `4 i` to `4 i + 3`, the lower offset less significant; so blocks that
differ load different words. -/
def Obligations.MessageWordsAreLittleEndian : Prop :=
  (∀ (b : Block) (i : Fin 16) (n : Nat) (v : Byte), n < 4 → b.val[4 * i.val + n]? = some v →
    (loadw b i).toNat / 2 ^ (8 * n) % 256 = v.toNat) ∧
  ∀ b b' : Block, (∀ i, loadw b i = loadw b' i) → b = b'

/-- R93: the two lines are independent: running each line's 80 rounds on its own gives the result of R95's interleaving (the
spec's own inference "from rules R90, R91, which read and write disjoint variables"). -/
def Obligations.LinesAreIndependent : Prop :=
  ∀ (h : Regs) (b : Block),
    compress h b = combine h
      ((List.finRange 80).foldl (fun w j => roundL (loadw b) j w) (Work.ofRegs h))
      ((List.finRange 80).foldl (fun w j => roundR (loadw b) j w) (Work.ofRegs h))

/-! ## Padding and serialising -/

/-- R130: `PAD` puts the marker byte, then `(55 - p) mod 64` zero bytes, the least number that makes the length 56 modulo 64,
then the length field; it adds at least 9 bytes, the length is a multiple of 64, and 64 or 128 for a buffer of 0 to 63 bytes. -/
def Obligations.PadFillsWholeBlocks : Prop :=
  ∀ (buf : List Byte) (len : DWord),
    ∃ z : Nat, pad buf len = buf ++ [0x80#8] ++ List.replicate z 0#8 ++ bytes64 (BitVec.ofNat 64 (8 * len.toNat)) ∧
      (buf.length + 1 + z) % 64 = 56 ∧ (∀ z', (buf.length + 1 + z') % 64 = 56 → z ≤ z') ∧
      (pad buf len).length % 64 = 0 ∧ buf.length + 9 ≤ (pad buf len).length ∧
      (buf.length ≤ 63 → z = (if buf.length ≤ 55 then 55 - buf.length else 119 - buf.length) ∧
        ((pad buf len).length = 64 ∨ (pad buf len).length = 128))

/-- R131: size and layout of the padded sequence, byte by byte (the spec's own inference "from rule R130"). -/
def Obligations.PadLayoutByOffset : Prop :=
  ∀ (buf : List Byte) (len : DWord), buf.length ≤ 63 →
    let p := buf.length
    let size := if p ≤ 55 then 64 else 128
    (pad buf len).length = size ∧
    ∀ (off : Nat) (v : Byte), (pad buf len)[off]? = some v →
      (off < p → buf[off]? = some v) ∧
      (off = p → v = 0x80#8) ∧
      (p < off → off < size - 8 → v = 0x00#8) ∧
      (size - 8 ≤ off → v.toNat = 8 * len.toNat % 2 ^ 64 / 2 ^ (8 * (off - (size - 8))) % 256)

/-- R42: as message words of the final block the length field is `X[14]`, the low half of the bit length, and `X[15]`, the
high half (the spec's own inference, "the field occupying offsets 56 to 63 of the last block"). -/
def Obligations.LengthFieldIsLastTwoWords : Prop :=
  ∀ (buf : List Byte) (len : DWord) (b : Block), buf.length < 64 →
    b.val = (pad buf len).drop ((pad buf len).length - 64) →
    (loadw b 14).toNat = 8 * len.toNat % 2 ^ 64 % 2 ^ 32 ∧ (loadw b 15).toNat = 8 * len.toNat % 2 ^ 64 / 2 ^ 32

/-- R132: `BITLEN` is `8 * len` modulo 2^64, the true bit length below 2^61, `len` shifted left by three, its low three bits
zero. -/
def Obligations.BitLengthField : Prop :=
  ∀ len : DWord, (bitlen len).toNat = 8 * len.toNat % 2 ^ 64 ∧ bitlen len = len <<< 3 ∧
    (len.toNat < 2 ^ 61 → (bitlen len).toNat = 8 * len.toNat) ∧ (bitlen len).toNat % 8 = 0

/-- R43, R133: the digest is 20 bytes, byte `4 i + n` being bits `8 n + 7` to `8 n` of register `i`; every 20-byte string is the
image of exactly one register quintuple. -/
def Obligations.SerialiserLayoutAndBijection : Prop :=
  (∀ (h : Regs) (i n : Nat) (w : Word), n < 4 → [h.h0, h.h1, h.h2, h.h3, h.h4][i]? = some w →
    ∃ v, (ser h)[4 * i + n]? = some v ∧ v.toNat = w.toNat / 2 ^ (8 * n) % 256) ∧
  (∀ h : Regs, (ser h).length = 20) ∧
  ∀ bs : List Byte, bs.length = 20 → ∃ h : Regs, ser h = bs ∧ ∀ h', ser h' = bs → h' = h

/-- R10: `LE32` and `bytes32` are inverse to each other. -/
def Obligations.WordAndBytesAreInverse : Prop :=
  (∀ b0 b1 b2 b3 : Byte, bytes32 (le32 b0 b1 b2 b3) = [b0, b1, b2, b3]) ∧
  ∀ (w : Word) (b0 b1 b2 b3 : Byte), bytes32 w = [b0, b1, b2, b3] → le32 b0 b1 b2 b3 = w

/-! ## Invariants and the whole machine -/

/-- R26, R6: every step, reset pulses included, keeps the invariant: a legal number of contexts, each holding the fold of the
complete blocks of some stream, its tail, its length, and the overflow mark. -/
def Obligations.StepKeepsInv : Prop :=
  ∀ s t : State, s.Inv → step s = .next t → t.Inv

/-- R35, R26: the state after reset meets the invariant, for every legal `NCTX` and for the model's own (log 1). -/
def Obligations.ResetHasInv : Prop :=
  (∀ n, 1 ≤ n → n ≤ 256 → (State.resetWith n).Inv) ∧ State.reset.Inv

/-- R23, R26 invariant 1: every step keeps every buffer at 63 bytes or fewer. -/
def Obligations.StepKeepsBuffersShort : Prop :=
  ∀ s t : State, s.BuffersShort → step s = .next t → t.BuffersShort

/-- The machine refines S1's four operations on byte streams (R110, R111, R116, R134, R135): where context `c` holds the
stream `σ c` for every `c`, a legal command leaves the streams S1 says, and a `DIGEST` of fewer than 2^61 absorbed bytes
delivers the published function of the stream (that last clause is R134's closing formula, the spec's own inference "from
10_state.md rule R26 invariant 3 and this rule"). -/
def Obligations.ExecRefinesStreams : Prop :=
  ∀ (s t : State) (σ : Nat → List Byte) (i : Instr), s.Tracks σ → legalIn s.nctx i = true → exec i s = .next t →
    t.Tracks (streamsAfter σ i (s.din.take (payloadCount i))) ∧
    ∀ c, i = .digest c → (σ c).length < 2 ^ 61 → doutOf t.out = doutOf s.out ++ ripemd160 (σ c)

/-- R134's closing formula: the digest of a context that has absorbed `m`, below 2^61 bytes, is `RIPEMD160(m)` (the
spec's own inference "from 10_state.md rule R26 invariant 3 and this rule"). -/
def Obligations.DigestIsRipemd160OfStream : Prop :=
  ∀ (x : Context) (m : List Byte), x.Holds m → m.length < 2 ^ 61 → x.digest = ripemd160 m

/-- Incremental equivalence (R115): a message absorbed in any pieces, empty ones and mid-block splits included, has the digest
of the whole message. Both grounds are the spec's own inferences: R115 about the whole state, and the right side, R134's
closing formula, "from 10_state.md rule R26 invariant 3 and this rule". -/
def Obligations.PiecewiseDigestIsRipemd160 : Prop :=
  ∀ ps : List (List Byte), ps.flatten.length < 2 ^ 61 →
    (ps.foldl Context.absorb Context.fresh).digest = ripemd160 ps.flatten

/-- R72's `HASH c`, from any state and for a payload of any length below 2^61: the commands the line stands for, `INIT c`, one
`ABSORB c` per piece of at most 65535 bytes, `DIGEST c`, run one after the other, complete; they take exactly the payload, answer
one response 0 each, deliver `RIPEMD160` of the payload and touch no other context. That the digest is `RIPEMD160` is R134's
closing formula, the spec's own inference "from 10_state.md rule R26 invariant 3 and this rule". -/
def Obligations.HashDeliversRipemd160 : Prop :=
  ∀ (s : State) (c : Nat) (p : Payload) (rest : List Byte), s.HostTakes → c < s.nctx → s.din = p.bytes ++ rest →
    p.bytes.length < 2 ^ 61 →
    (∀ e ∈ (Line.hash c p).expand, payloadCount e.1 ≤ 65535) ∧
    ∃ t, execAll ((Line.hash c p).expand.map Prod.fst) s = .next t ∧ t.din = rest ∧ t.cmd = s.cmd ∧
      (∀ k, k ≠ c → t.ctxs[k]? = s.ctxs[k]?) ∧
      t.out = s.out ++ List.replicate ((Line.hash c p).expand.length - 1) (.rsp 0#32) ++
        (ripemd160 p.bytes).map Beat.dout ++ [.rsp 0#32]

/-- R118, R34: clone independence. After `COPY d, src` and `ABSORB d`, the source still digests to its own stream and the copy
to that stream followed by the payload (the spec's own inference "from rule R116, rule R111, 20_memory.md rule R52 and
42_digest.md rule R134"). A payload of more than 65535 bytes is here one `ABSORB` that no word spells, which rests on log 9
(DESIGN CHOICE); up to 65535 it is one command word. -/
def Obligations.ClonesAreIndependent : Prop :=
  ∀ (s : State) (d src n : Nat) (y : Context) (m : List Byte), s.HostTakes → d ≠ src → d < s.nctx →
    s.ctxs[src]? = some y → y.Holds m → n ≤ s.din.length → m.length + n < 2 ^ 61 →
    ∃ s1 s2 s3 s4, exec (.copy d src) s = .next s1 ∧ exec (.absorb d n) s1 = .next s2 ∧
      exec (.digest src) s2 = .next s3 ∧ exec (.digest d) s3 = .next s4 ∧ s4.ctxs[src]? = some y ∧
      s4.out = s.out ++ [.rsp 0#32, .rsp 0#32] ++ (ripemd160 m).map Beat.dout ++ [.rsp 0#32] ++
        (ripemd160 (m ++ s.din.take n)).map Beat.dout ++ [.rsp 0#32]
end

