-- ==== Sys2Proof/Laws/Bytes.lean ====
section
/-! SUPPORT. Bytes and words: values of the conversions (00_scope.md R10), and lengths of `PAD`, `SER` and a repeated payload. -/

namespace Sys2Proof.Machine

theorem toNat_le32 (b0 b1 b2 b3 : Byte) :
    (le32 b0 b1 b2 b3).toNat = b0.toNat + 2 ^ 8 * b1.toNat + 2 ^ 16 * b2.toNat + 2 ^ 24 * b3.toNat := by
  have h0 := b0.isLt
  have h1 := b1.isLt
  have h2 := b2.isLt
  have h3 := b3.isLt
  simp only [le32, BitVec.toNat_ofNat]
  omega

@[simp] theorem toNat_byteOf {w : Nat} (v : BitVec w) (n : Nat) : (byteOf v n).toNat = v.toNat / 2 ^ (8 * n) % 256 := by
  simp [byteOf]

@[simp] theorem length_bytes32 (w : Word) : (bytes32 w).length = 4 := rfl
@[simp] theorem length_bytes64 (v : DWord) : (bytes64 v).length = 8 := rfl
@[simp] theorem length_zeros (n : Nat) : (zeros n).length = n := by simp [zeros]
@[simp] theorem length_ser (h : Regs) : (ser h).length = 20 := rfl

theorem zeroCount_lt (p : Nat) : zeroCount p < 64 := Nat.mod_lt _ (by decide)

theorem zeroCount_spec (p : Nat) : (p + 1 + zeroCount p) % 64 = 56 := by
  unfold zeroCount
  omega

@[simp] theorem length_pad (buf : List Byte) (len : DWord) :
    (pad buf len).length = buf.length + 1 + zeroCount buf.length + 8 := by
  simp [pad]
  omega

@[simp] theorem length_digest (x : Context) : x.digest.length = 20 := rfl

theorem Payload.length_rep (p : Payload) (k : Nat) : (Payload.rep p k).bytes.length = k * p.bytes.length := by
  simp [Payload.bytes]

end Sys2Proof.Machine
end

