-- ==== Sys2Proof/Laws/Decode.lean ====
section
/-! SUPPORT. The fields of a command word, and what the decoder can answer. -/

namespace Sys2Proof

theorem opcOf_eq (w : Word) : opcOf w = w.toNat / 2 ^ 24 := by
  have := w.isLt
  simp only [opcOf, bits]
  omega

theorem ctxOf_eq (w : Word) : ctxOf w = w.toNat / 2 ^ 16 % 256 := rfl
theorem argOf_eq (w : Word) : argOf w = w.toNat % 65536 := by simp [argOf, bits]
theorem srcOf_eq (w : Word) : srcOf w = w.toNat / 2 ^ 8 % 256 := rfl
theorem lowOf_eq (w : Word) : lowOf w = w.toNat % 256 := by simp [lowOf, bits]

theorem ctxOf_lt (w : Word) : ctxOf w < 256 := Nat.mod_lt _ (by decide)
theorem srcOf_lt (w : Word) : srcOf w < 256 := Nat.mod_lt _ (by decide)
theorem argOf_lt (w : Word) : argOf w < 65536 := Nat.mod_lt _ (by decide)
theorem lowOf_lt (w : Word) : lowOf w < 256 := Nat.mod_lt _ (by decide)

/-- The word is its fields. -/
theorem toNat_eq_fields (w : Word) : w.toNat = opcOf w * 2 ^ 24 + ctxOf w * 2 ^ 16 + argOf w := by
  rw [opcOf_eq, ctxOf_eq, argOf_eq]
  omega

/-- `ARG` is `SRC` above the low byte. -/
theorem argOf_eq_src_low (w : Word) : argOf w = srcOf w * 2 ^ 8 + lowOf w := by
  rw [argOf_eq, srcOf_eq, lowOf_eq]
  omega

theorem decode_ok_cases {w : Word} {i : Instr} (h : decode w = .ok i) :
    (opcOf w = 1 ∧ argOf w = 0 ∧ i = .init (ctxOf w)) ∨
    (opcOf w = 2 ∧ i = .absorb (ctxOf w) (argOf w)) ∨
    (opcOf w = 3 ∧ argOf w = 0 ∧ i = .digest (ctxOf w)) ∨
    (opcOf w = 4 ∧ lowOf w = 0 ∧ i = .copy (ctxOf w) (srcOf w)) := by
  unfold decode at h
  repeat' split at h
  all_goals simp_all

theorem decode_error_cases {w : Word} {cause : Cause} (h : decode w = .error cause) :
    (cause = .illegalOpcode ∧ opcOf w ≠ 1 ∧ opcOf w ≠ 2 ∧ opcOf w ≠ 3 ∧ opcOf w ≠ 4) ∨
    (cause = .reservedField ∧
      ((opcOf w = 1 ∧ argOf w ≠ 0) ∨ (opcOf w = 3 ∧ argOf w ≠ 0) ∨ (opcOf w = 4 ∧ lowOf w ≠ 0))) := by
  unfold decode at h
  repeat' split at h
  all_goals simp_all

end Sys2Proof
end

