-- ==== Sys2Proof/Laws/State.lean ====
section
/-! SUPPORT. One lemma per field per update of `State`, true by unfolding, so that no proof unfolds a record update. -/

namespace Sys2Proof.Machine

variable (s : State)

@[simp] theorem State.ctxs_setCtx (c : Nat) (x : Context) : (s.setCtx c x).ctxs = s.ctxs.set c x := rfl
@[simp] theorem State.cmd_setCtx (c : Nat) (x : Context) : (s.setCtx c x).cmd = s.cmd := rfl
@[simp] theorem State.din_setCtx (c : Nat) (x : Context) : (s.setCtx c x).din = s.din := rfl
@[simp] theorem State.out_setCtx (c : Nat) (x : Context) : (s.setCtx c x).out = s.out := rfl
@[simp] theorem State.rspReady_setCtx (c : Nat) (x : Context) : (s.setCtx c x).rspReady = s.rspReady := rfl
@[simp] theorem State.doutReady_setCtx (c : Nat) (x : Context) : (s.setCtx c x).doutReady = s.doutReady := rfl
@[simp] theorem State.rst_setCtx (c : Nat) (x : Context) : (s.setCtx c x).rst = s.rst := rfl

@[simp] theorem State.ctxs_setCmd (ws : List Word) : (s.setCmd ws).ctxs = s.ctxs := rfl
@[simp] theorem State.cmd_setCmd (ws : List Word) : (s.setCmd ws).cmd = ws := rfl
@[simp] theorem State.din_setCmd (ws : List Word) : (s.setCmd ws).din = s.din := rfl
@[simp] theorem State.out_setCmd (ws : List Word) : (s.setCmd ws).out = s.out := rfl
@[simp] theorem State.rspReady_setCmd (ws : List Word) : (s.setCmd ws).rspReady = s.rspReady := rfl
@[simp] theorem State.doutReady_setCmd (ws : List Word) : (s.setCmd ws).doutReady = s.doutReady := rfl
@[simp] theorem State.rst_setCmd (ws : List Word) : (s.setCmd ws).rst = s.rst := rfl

@[simp] theorem State.ctxs_setDin (bs : List Byte) : (s.setDin bs).ctxs = s.ctxs := rfl
@[simp] theorem State.cmd_setDin (bs : List Byte) : (s.setDin bs).cmd = s.cmd := rfl
@[simp] theorem State.din_setDin (bs : List Byte) : (s.setDin bs).din = bs := rfl
@[simp] theorem State.out_setDin (bs : List Byte) : (s.setDin bs).out = s.out := rfl
@[simp] theorem State.rspReady_setDin (bs : List Byte) : (s.setDin bs).rspReady = s.rspReady := rfl
@[simp] theorem State.doutReady_setDin (bs : List Byte) : (s.setDin bs).doutReady = s.doutReady := rfl
@[simp] theorem State.rst_setDin (bs : List Byte) : (s.setDin bs).rst = s.rst := rfl

@[simp] theorem State.ctxs_emit (bs : List Beat) : (s.emit bs).ctxs = s.ctxs := rfl
@[simp] theorem State.cmd_emit (bs : List Beat) : (s.emit bs).cmd = s.cmd := rfl
@[simp] theorem State.din_emit (bs : List Beat) : (s.emit bs).din = s.din := rfl
@[simp] theorem State.out_emit (bs : List Beat) : (s.emit bs).out = s.out ++ bs := rfl
@[simp] theorem State.rspReady_emit (bs : List Beat) : (s.emit bs).rspReady = s.rspReady := rfl
@[simp] theorem State.doutReady_emit (bs : List Beat) : (s.emit bs).doutReady = s.doutReady := rfl
@[simp] theorem State.rst_emit (bs : List Beat) : (s.emit bs).rst = s.rst := rfl

@[simp] theorem State.ctxs_setRst (r : ResetInput) : (s.setRst r).ctxs = s.ctxs := rfl
@[simp] theorem State.cmd_setRst (r : ResetInput) : (s.setRst r).cmd = s.cmd := rfl
@[simp] theorem State.din_setRst (r : ResetInput) : (s.setRst r).din = s.din := rfl
@[simp] theorem State.out_setRst (r : ResetInput) : (s.setRst r).out = s.out := rfl
@[simp] theorem State.rspReady_setRst (r : ResetInput) : (s.setRst r).rspReady = s.rspReady := rfl
@[simp] theorem State.doutReady_setRst (r : ResetInput) : (s.setRst r).doutReady = s.doutReady := rfl
@[simp] theorem State.rst_setRst (r : ResetInput) : (s.setRst r).rst = r := rfl

@[simp] theorem State.nctx_setCtx (c : Nat) (x : Context) : (s.setCtx c x).nctx = s.nctx := by simp [State.nctx]
@[simp] theorem State.nctx_setDin (bs : List Byte) : (s.setDin bs).nctx = s.nctx := rfl
@[simp] theorem State.nctx_setCmd (ws : List Word) : (s.setCmd ws).nctx = s.nctx := rfl
@[simp] theorem State.nctx_emit (bs : List Beat) : (s.emit bs).nctx = s.nctx := rfl

end Sys2Proof.Machine
end

