-- ==== Sys2Proof/Laws/Ops.lean ====
section
/-! SUPPORT. One spec lemma per shared operation: when it answers, and everything it can answer. -/

namespace Sys2Proof.Machine

/-! ### andThen -/

@[simp] theorem andThen_next {α β : Type} (a : α) (f : α → Host.Outcome β Fault Refusal) :
    andThen (.next a) f = f a := rfl

@[simp] theorem andThen_fault {α β : Type} (r : Fault) (f : α → Host.Outcome β Fault Refusal) :
    andThen (.fault r) f = .fault r := rfl

@[simp] theorem andThen_refused {α β : Type} (r : Refusal) (f : α → Host.Outcome β Fault Refusal) :
    andThen (.refused r) f = .refused r := rfl

theorem andThen_eq_next {α β : Type} {o : Host.Outcome α Fault Refusal} {f : α → Host.Outcome β Fault Refusal} {b : β} :
    andThen o f = .next b ↔ ∃ a, o = .next a ∧ f a = .next b := by
  cases o <;> simp [andThen]

/-! ### Ports -/

theorem takePayload_of_le {n : Nat} {s : State} (h : n ≤ s.din.length) :
    takePayload n s = .next (s.din.take n, s.setDin (s.din.drop n)) := by
  simp [takePayload, h]

theorem takePayload_eq_next {n : Nat} {s : State} {p : List Byte × State} :
    takePayload n s = .next p ↔ n ≤ s.din.length ∧ p = (s.din.take n, s.setDin (s.din.drop n)) := by
  unfold takePayload
  split
  · rename_i h
    simp [h, eq_comm]
  · rename_i h
    simp [h]

theorem emitDout_of_ready {bs : List Byte} {s : State} (h : s.doutReady = true) :
    emitDout bs s = .next (s.emit (bs.map Beat.dout)) := by
  simp [emitDout, h]

theorem emitDout_eq_next {bs : List Byte} {s t : State} :
    emitDout bs s = .next t ↔ s.doutReady = true ∧ t = s.emit (bs.map Beat.dout) := by
  cases h : s.doutReady <;> simp [emitDout, h, eq_comm]

theorem respond_of_ready {r : Response} {s : State} (h : s.rspReady = true) :
    respond r s = .next (s.emit [Beat.rsp (responseWord r)]) := by
  simp [respond, h]

theorem respond_eq_next {r : Response} {s t : State} :
    respond r s = .next t ↔ s.rspReady = true ∧ t = s.emit [Beat.rsp (responseWord r)] := by
  cases h : s.rspReady <;> simp [respond, h, eq_comm]

/-- R153: what raising a fault does. -/
theorem raiseFault_eq_next {cause : Cause} {s t : State} :
    raiseFault cause s = .next t ↔ s.rspReady = true ∧ t = s.emit [Beat.rsp (responseWord (.faulted cause))] :=
  respond_eq_next

/-! ### Operands -/

theorem withContext_of_some {c : Nat} {s : State} {k : Context → Outcome} {x : Context} (h : s.ctxs[c]? = some x) :
    withContext c s k = k x := by
  simp [withContext, h]

theorem withContext_of_none {c : Nat} {s : State} {k : Context → Outcome} (h : s.nctx ≤ c) :
    withContext c s k = raiseFault .badContext s := by
  have : s.ctxs[c]? = none := List.getElem?_eq_none h
  simp [withContext, this]

theorem withContext_eq_next {c : Nat} {s t : State} {k : Context → Outcome} :
    withContext c s k = .next t ↔
      (∃ x, s.ctxs[c]? = some x ∧ k x = .next t) ∨ (s.nctx ≤ c ∧ raiseFault .badContext s = .next t) := by
  rcases Nat.lt_or_ge c s.ctxs.length with h | h
  · have hx : s.ctxs[c]? = some s.ctxs[c] := List.getElem?_eq_getElem h
    simp only [withContext, hx, State.nctx]
    simp [h]
  · have hx : s.ctxs[c]? = none := List.getElem?_eq_none h
    simp only [withContext, hx, State.nctx]
    simp [h]

/-- A legal index names a context. -/
theorem State.exists_ctx {s : State} {c : Nat} (h : c < s.nctx) : ∃ x, s.ctxs[c]? = some x :=
  ⟨_, List.getElem?_eq_getElem h⟩

/-- A context that exists has a legal index. -/
theorem State.lt_nctx {s : State} {c : Nat} {x : Context} (h : s.ctxs[c]? = some x) : c < s.nctx :=
  (List.getElem?_eq_some_iff.mp h).1

theorem State.setCtx_same {s : State} {c : Nat} (x : Context) (h : c < s.nctx) : (s.setCtx c x).ctxs[c]? = some x := by
  simp only [State.ctxs_setCtx]
  exact List.getElem?_set_self h

theorem State.setCtx_other {s : State} {c k : Nat} (x : Context) (h : c ≠ k) :
    (s.setCtx c x).ctxs[k]? = s.ctxs[k]? := by
  simp [State.ctxs_setCtx, List.getElem?_set_ne h]

end Sys2Proof.Machine
end

