-- ==== Sys2Proof/Laws/Exec.lean ====
section
/-! SUPPORT. What each command can do: when `exec` answers a next state, one of the listed cases holds. -/

namespace Sys2Proof.Machine

/-- The beat of a fault response with cause `BAD_CONTEXT`. -/
theorem responseWord_badContext : responseWord (.faulted .badContext) = 3#32 := rfl

theorem responseWord_done (ovf : Bool) : responseWord (.done ovf) = if ovf then 0x100#32 else 0#32 := by
  cases ovf <;> rfl

theorem exec_init_cases {c : Nat} {s t : State} (h : exec (.init c) s = .next t) :
    (c < s.nctx ∧ t = (s.setCtx c Context.fresh).emit [.rsp 0#32]) ∨ (s.nctx ≤ c ∧ t = s.emit [.rsp 3#32]) := by
  rcases withContext_eq_next.mp h with ⟨x, hx, hk⟩ | ⟨hc, hk⟩
  · exact .inl ⟨State.lt_nctx hx, (respond_eq_next.mp hk).2⟩
  · exact .inr ⟨hc, (raiseFault_eq_next.mp hk).2⟩

theorem exec_absorb_cases {c n : Nat} {s t : State} (h : exec (.absorb c n) s = .next t) :
    n ≤ s.din.length ∧
    ((∃ x, s.ctxs[c]? = some x ∧
        t = ((s.setDin (s.din.drop n)).setCtx c (x.absorb (s.din.take n))).emit
          [.rsp (responseWord (.done (x.absorb (s.din.take n)).ovf))]) ∨
      (s.nctx ≤ c ∧ t = (s.setDin (s.din.drop n)).emit [.rsp 3#32])) := by
  obtain ⟨p, hp, hk⟩ := andThen_eq_next.mp h
  obtain ⟨hn, rfl⟩ := takePayload_eq_next.mp hp
  refine ⟨hn, ?_⟩
  rcases withContext_eq_next.mp hk with ⟨x, hx, hk⟩ | ⟨hc, hk⟩
  · exact .inl ⟨x, hx, (respond_eq_next.mp hk).2⟩
  · exact .inr ⟨hc, (raiseFault_eq_next.mp hk).2⟩

theorem exec_digest_cases {c : Nat} {s t : State} (h : exec (.digest c) s = .next t) :
    (∃ x, s.ctxs[c]? = some x ∧
        t = (s.emit (x.digest.map Beat.dout)).emit [.rsp (responseWord (.done x.ovf))]) ∨
      (s.nctx ≤ c ∧ t = s.emit [.rsp 3#32]) := by
  rcases withContext_eq_next.mp h with ⟨x, hx, hk⟩ | ⟨hc, hk⟩
  · obtain ⟨u, hu, hr⟩ := andThen_eq_next.mp hk
    obtain ⟨-, rfl⟩ := emitDout_eq_next.mp hu
    exact .inl ⟨x, hx, (respond_eq_next.mp hr).2⟩
  · exact .inr ⟨hc, (raiseFault_eq_next.mp hk).2⟩

theorem exec_copy_cases {d src : Nat} {s t : State} (h : exec (.copy d src) s = .next t) :
    (∃ y, d < s.nctx ∧ s.ctxs[src]? = some y ∧ t = (s.setCtx d y).emit [.rsp (responseWord (.done y.ovf))]) ∨
      ((s.nctx ≤ d ∨ s.nctx ≤ src) ∧ t = s.emit [.rsp 3#32]) := by
  rcases withContext_eq_next.mp h with ⟨x, hx, hk⟩ | ⟨hc, hk⟩
  · rcases withContext_eq_next.mp hk with ⟨y, hy, hk⟩ | ⟨hc, hk⟩
    · exact .inl ⟨y, State.lt_nctx hx, hy, (respond_eq_next.mp hk).2⟩
    · exact .inr ⟨.inr hc, (raiseFault_eq_next.mp hk).2⟩
  · exact .inr ⟨.inl hc, (raiseFault_eq_next.mp hk).2⟩

/-! ### Sequences of commands -/

@[simp] theorem execAll_nil (s : State) : execAll [] s = .next s := rfl

theorem execAll_cons {i : Instr} {is : List Instr} {s t : State} (h : exec i s = .next t) :
    execAll (i :: is) s = execAll is t := by
  simp [execAll, h]

theorem execAll_append {is js : List Instr} {s t : State} (h : execAll is s = .next t) :
    execAll (is ++ js) s = execAll js t := by
  induction is generalizing s with
  | nil =>
    cases h
    rfl
  | cons i is ih =>
    obtain ⟨u, hu, hr⟩ := andThen_eq_next.mp h
    rw [List.cons_append, execAll_cons hu]
    exact ih hr

end Sys2Proof.Machine
end

