-- ==== Sys2Proof/Laws/Stream.lean ====
section
/-! SUPPORT. The block loop: `drain` is the fold over the complete blocks and the tail, and both compose over concatenation. -/

namespace Sys2Proof.Machine

theorem splitBlock_of_lt {t : List Byte} (h : t.length < 64) : splitBlock t = none := by
  simp [splitBlock, Nat.not_le.mpr h]

theorem splitBlock_block_append (b : Block) (r : List Byte) : splitBlock (b.val ++ r) = some (b, r) := by
  have hb := b.property
  have h : 64 ≤ (b.val ++ r).length := by simp [hb]
  unfold splitBlock
  rw [dif_pos h]
  congr 1
  ext1
  · exact Subtype.ext (List.take_left' hb)
  · exact List.drop_left' hb

/-- A sequence of 64 bytes or more is a block and a rest. -/
theorem exists_block_append {t : List Byte} (h : 64 ≤ t.length) : ∃ (b : Block) (r : List Byte), t = b.val ++ r :=
  ⟨⟨t.take 64, by simp; omega⟩, t.drop 64, (List.take_append_drop 64 t).symm⟩

theorem length_block_append (b : Block) (r : List Byte) : (b.val ++ r).length = 64 + r.length := by
  simp [b.property]

/-- Every byte sequence is built from a short tail by putting blocks before it. -/
theorem blockInduction {P : List Byte → Prop} (short : ∀ t, t.length < 64 → P t)
    (block : ∀ (b : Block) (r : List Byte), P r → P (b.val ++ r)) (t : List Byte) : P t := by
  generalize hn : t.length = n
  induction n using Nat.strongRecOn generalizing t with
  | ind n ih =>
    rcases Nat.lt_or_ge t.length 64 with h | h
    · exact short t h
    · obtain ⟨b, r, rfl⟩ := exists_block_append h
      rw [length_block_append] at hn
      exact block b r (ih r.length (by omega) r rfl)

/-! ### Blocks and tail -/

theorem blocksOf_of_lt {t : List Byte} (h : t.length < 64) : blocksOf t = [] := by
  simp [blocksOf, Nat.div_eq_of_lt h]

theorem tailOf_of_lt {t : List Byte} (h : t.length < 64) : tailOf t = t := by
  simp [tailOf, Nat.div_eq_of_lt h]

theorem blocksOf_block_append (b : Block) (r : List Byte) : blocksOf (b.val ++ r) = b :: blocksOf r := by
  have hb := b.property
  have hd : (64 + r.length) / 64 = r.length / 64 + 1 := by omega
  unfold blocksOf
  rw [length_block_append, hd, List.range_succ_eq_map]
  rw [List.filterMap_cons, List.filterMap_map]
  simp only [Nat.mul_zero, List.drop_zero, splitBlock_block_append, Option.map_some]
  congr 1
  apply List.filterMap_congr
  intro i _
  have : (b.val ++ r).drop (64 * (i + 1)) = r.drop (64 * i) := by
    rw [show 64 * (i + 1) = b.val.length + 64 * i by omega, List.drop_append]
    simp
  simp [this]

theorem tailOf_block_append (b : Block) (r : List Byte) : tailOf (b.val ++ r) = tailOf r := by
  have hb := b.property
  unfold tailOf
  rw [length_block_append, show 64 * ((64 + r.length) / 64) = b.val.length + 64 * (r.length / 64) by omega,
    List.drop_append]
  simp

theorem length_blocksOf (t : List Byte) : (blocksOf t).length = t.length / 64 := by
  induction t using blockInduction with
  | short t h => simp [blocksOf_of_lt h, Nat.div_eq_of_lt h]
  | block b r ih =>
    rw [blocksOf_block_append, List.length_cons, ih, length_block_append]
    omega

theorem length_tailOf (t : List Byte) : (tailOf t).length = t.length % 64 := by
  unfold tailOf
  rw [List.length_drop]
  omega

theorem length_tailOf_lt (t : List Byte) : (tailOf t).length < 64 := by
  rw [length_tailOf]
  omega

/-- A stream is its complete blocks and its tail. -/
theorem flatten_blocksOf_append_tailOf (t : List Byte) : ((blocksOf t).map Subtype.val).flatten ++ tailOf t = t := by
  induction t using blockInduction with
  | short t h => simp [blocksOf_of_lt h, tailOf_of_lt h]
  | block b r ih =>
    rw [blocksOf_block_append, tailOf_block_append]
    rw [List.map_cons, List.flatten_cons, List.append_assoc, ih]

/-! ### The loop of R111 -/

theorem foldBlocks_of_lt {h : Regs} {t : List Byte} (ht : t.length < 64) : foldBlocks h t = h := by
  simp [foldBlocks, blocksOf_of_lt ht]

theorem foldBlocks_block_append (h : Regs) (b : Block) (r : List Byte) :
    foldBlocks h (b.val ++ r) = foldBlocks (compress h b) r := by
  simp [foldBlocks, blocksOf_block_append]

/-- R111's loop computes the fold over the complete blocks and leaves the tail. -/
theorem drain_eq (h : Regs) (t : List Byte) : drain h t = (foldBlocks h t, tailOf t) := by
  induction t using blockInduction generalizing h with
  | short t ht => simp [drain, drainUpTo, Nat.div_eq_of_lt ht, foldBlocks_of_lt ht, tailOf_of_lt ht]
  | block b r ih =>
    rw [foldBlocks_block_append, tailOf_block_append, ← ih]
    unfold drain
    rw [length_block_append, show (64 + r.length) / 64 = r.length / 64 + 1 by omega]
    simp [drainUpTo, splitBlock_block_append]

/-- Absorbing on top of a stream: fold what the stream left in the buffer together with the new bytes. -/
theorem foldBlocks_append (h : Regs) (m d : List Byte) :
    foldBlocks h (m ++ d) = foldBlocks (foldBlocks h m) (tailOf m ++ d) := by
  induction m using blockInduction generalizing h with
  | short m hm => rw [foldBlocks_of_lt hm, tailOf_of_lt hm]
  | block b r ih =>
    rw [List.append_assoc, foldBlocks_block_append, foldBlocks_block_append, tailOf_block_append, ih]

theorem tailOf_append (m d : List Byte) : tailOf (m ++ d) = tailOf (tailOf m ++ d) := by
  induction m using blockInduction with
  | short m hm => rw [tailOf_of_lt hm]
  | block b r ih => rw [List.append_assoc, tailOf_block_append, tailOf_block_append, ih]

/-! ### Contexts -/

theorem Context.absorb_regs (x : Context) (d : List Byte) : (x.absorb d).regs = foldBlocks x.regs (x.buf ++ d) := by
  simp [Context.absorb, drain_eq]

theorem Context.absorb_buf (x : Context) (d : List Byte) : (x.absorb d).buf = tailOf (x.buf ++ d) := by
  simp [Context.absorb, drain_eq]

@[simp] theorem Context.absorb_len (x : Context) (d : List Byte) : (x.absorb d).len = lenAfter x.len d.length := rfl

@[simp] theorem Context.absorb_ovf (x : Context) (d : List Byte) : (x.absorb d).ovf = ovfAfter x.len x.ovf d.length := rfl

theorem Context.fresh_holds : Context.fresh.Holds [] :=
  ⟨by decide, by decide, by decide, by decide⟩

end Sys2Proof.Machine
end

