-- ==== Sys2Proof/Laws/Memory.lean ====
section
/-! SUPPORT. The buffers: every operation on them keeps the canonical form (10_state.md R23, R26), and the laws of reading
after the byte append (20_memory.md R45). -/

namespace Sys2Proof.Machine

theorem Memory.read1_append_self (m : Memory) (v : Byte) : (m.append v).read1 m.length = some v := by
  simp [Memory.append, Memory.read1]

theorem Memory.read1_append_other {m : Memory} {off : Nat} (v : Byte) (h : off ≠ m.length) :
    (m.append v).read1 off = m.read1 off := by
  rcases Nat.lt_or_gt_of_ne h with h | h
  · simp [Memory.append, Memory.read1, List.getElem?_append_left h]
  · simp only [Memory.append, Memory.read1]
    rw [List.getElem?_eq_none (by simp; omega), List.getElem?_eq_none (by omega)]

/-- The byte append keeps the canonical form where a block is not completed. -/
theorem Memory.append_wf {m : Memory} (v : Byte) (h : m.length < 63) : (m.append v).wf := by
  simp [Memory.append, Memory.wf]
  omega

/-- A fresh context's buffer is canonical. -/
theorem Context.fresh_buf_wf : Context.fresh.buf.wf := by decide

/-- `ABSORB` leaves a canonical buffer, whatever it found. -/
theorem Context.absorb_buf_wf (x : Context) (d : List Byte) : (x.absorb d).buf.wf := by
  rw [Memory.wf, Context.absorb_buf]
  exact length_tailOf_lt _

/-- R112's byte where it completes no block. -/
theorem absorbByte_of_lt {p : Regs × Memory} (v : Byte) (h : p.2.length < 63) : absorbByte p v = (p.1, p.2 ++ [v]) := by
  have hl : (p.2.append v).length ≠ 64 := by
    simp [Memory.append]
    omega
  exact dif_neg hl

/-- R112's byte where it completes a block. -/
theorem absorbByte_of_full {p : Regs × Memory} (v : Byte) (h : (p.2 ++ [v]).length = 64) :
    absorbByte p v = (compress p.1 ⟨p.2 ++ [v], h⟩, []) :=
  dif_pos h

/-- One byte of the byte-serial form keeps the canonical form. -/
theorem absorbByte_wf {p : Regs × Memory} (v : Byte) (h : p.2.wf) : (absorbByte p v).2.wf := by
  unfold absorbByte
  have hl : (p.2.append v).length = p.2.length + 1 := by simp [Memory.append]
  simp only [Memory.wf] at h ⊢
  split
  · simp
  · simp only
    omega

/-- The word a block is loaded from is the four bytes read as memory (R45, R81). -/
theorem loadw_eq_read4 (b : Block) (i : Fin 16) : Memory.read4 b.val (4 * i.val) = some (loadw b i) := by
  have hb := b.property
  have hi := i.isLt
  simp only [Memory.read4, loadw]
  rw [List.getElem?_eq_getElem (by omega), List.getElem?_eq_getElem (by omega), List.getElem?_eq_getElem (by omega),
    List.getElem?_eq_getElem (by omega)]

/-- Reset memory is canonical. -/
theorem State.resetWith_buffersShort (n : Nat) : (State.resetWith n).BuffersShort := by
  intro c x h
  have hx : x ∈ List.replicate n Context.fresh := List.mem_of_getElem? h
  rw [List.eq_of_mem_replicate hx]
  exact Context.fresh_buf_wf

end Sys2Proof.Machine
end

