-- ==== Sys2Proof/Laws/PerInstr.lean ====
section
/-! SUPPORT. Families stated per constructor of `Instr`. -/

namespace Sys2Proof.Laws.EncodedFields

/-- The encoder puts the opcode and the context index of a well-formed command into their fields (R61, R65). -/
def Statement (i : Instr) : Prop :=
  i.wf = true →
    match i with
    | .init c => opcOf (encode i) = 1 ∧ ctxOf (encode i) = c ∧ argOf (encode i) = 0
    | .absorb c n => opcOf (encode i) = 2 ∧ ctxOf (encode i) = c ∧ argOf (encode i) = n
    | .digest c => opcOf (encode i) = 3 ∧ ctxOf (encode i) = c ∧ argOf (encode i) = 0
    | .copy d s => opcOf (encode i) = 4 ∧ ctxOf (encode i) = d ∧ srcOf (encode i) = s ∧ lowOf (encode i) = 0

theorem init (c : Nat) : Statement (.init c) := by
  intro h
  simp only [Instr.wf, indexFits, decide_eq_true_eq] at h
  simp only [opcOf_eq, ctxOf_eq, argOf_eq, encode, BitVec.toNat_ofNat]
  omega

theorem absorb (c n : Nat) : Statement (.absorb c n) := by
  intro h
  simp only [Instr.wf, indexFits, countFits, Bool.and_eq_true, decide_eq_true_eq] at h
  simp only [opcOf_eq, ctxOf_eq, argOf_eq, encode, BitVec.toNat_ofNat]
  omega

theorem digest (c : Nat) : Statement (.digest c) := by
  intro h
  simp only [Instr.wf, indexFits, decide_eq_true_eq] at h
  simp only [opcOf_eq, ctxOf_eq, argOf_eq, encode, BitVec.toNat_ofNat]
  omega

theorem copy (d s : Nat) : Statement (.copy d s) := by
  intro h
  simp only [Instr.wf, indexFits, Bool.and_eq_true, decide_eq_true_eq] at h
  simp only [opcOf_eq, ctxOf_eq, srcOf_eq, lowOf_eq, encode, BitVec.toNat_ofNat]
  omega

end Sys2Proof.Laws.EncodedFields
end

