-- ==== Sys2Proof/Tests/Slice0.lean ====
section
/-! SUPPORT. Tests and witnesses. Every expected value of a test is copied from 95_test_vectors.md (the section is named) or
written out by hand from the encoding rules; the witnesses show that the hypotheses of each obligation can be met. -/

namespace Sys2Proof.Tests

open Sys2Proof Sys2Proof.Machine

/-! ## Helpers -/

/-- The outcome is a next state with the property. -/
def answers (o : Outcome) (p : State → Bool) : Bool :=
  match o with
  | .next t => p t
  | .fault _ => false
  | .refused _ => false

/-- The outcome is the stuck state `r`. -/
def stops (o : Outcome) (r : Fault) : Bool :=
  match o with
  | .next _ => false
  | .fault q => decide (q = r)
  | .refused _ => false

/-- Two contexts, the first of them `x`, otherwise as after reset. -/
def holding (x : Context) : State := State.reset.setCtx 0 x

/-- The context of program P1 before its `DIGEST`: it has absorbed "abc". -/
def abc : Context := ⟨iv, [0x61, 0x62, 0x63], 3#64, false⟩

/-- A context whose `OVF` is 1, set directly (section 3.8, last row). -/
def overflowed : Context := ⟨iv, [], 0x2000000000000000#64, true⟩

/-- The bytes `00 01 02 ...`, byte `i` equal to `i mod 256` (section 4, `seq(n)`). -/
def seq (n : Nat) : List Byte := (List.range n).map fun i => BitVec.ofNat 8 i

/-- `seq(64)` as a block. -/
def seqBlock : Block := ⟨seq 64, by decide⟩

/-- A context whose buffer holds `seq(n)`. -/
def seqContext (n : Nat) : Context := ⟨iv, seq n, BitVec.ofNat 64 n, false⟩

/-- Reset, then the host offers one word and its payload. -/
def offering (w : Word) (data : List Byte) : State := State.reset.offer [(w, data)]

/-! ## Well-formedness: one ill-formed term for each check, refused -/

theorem test_wf_init_index : (Instr.init 256).wf = false := by decide
theorem test_wf_absorb_index : (Instr.absorb 256 0).wf = false := by decide
theorem test_wf_absorb_count : (Instr.absorb 0 65536).wf = false := by decide
theorem test_wf_digest_index : (Instr.digest 256).wf = false := by decide
theorem test_wf_copy_destination : (Instr.copy 256 0).wf = false := by decide
theorem test_wf_copy_source : (Instr.copy 0 256).wf = false := by decide

/-! ## Decoding: words written out bit by bit from R61 to R65 (`OPC`, `CTX`, `ARG`), and section 3.9 -/

/-- `OPC = 00000001`, `CTX = 11111111`, `ARG` zero (R62). -/
theorem test_decode_init : decode 0b00000001_11111111_0000000000000000#32 = .ok (.init 255) := by decide
/-- `OPC = 00000010`, `CTX = 10000001`, `COUNT = 1000000000000011` (R63). -/
theorem test_decode_absorb : decode 0b00000010_10000001_1000000000000011#32 = .ok (.absorb 129 32771) := by decide
/-- `OPC = 00000011`, `CTX = 00000001`, `ARG` zero (R62). -/
theorem test_decode_digest : decode 0b00000011_00000001_0000000000000000#32 = .ok (.digest 1) := by decide
/-- `OPC = 00000100`, `CTX = 00000010` the destination, `SRC = 10000001`, low byte zero (R64). -/
theorem test_decode_copy : decode 0b00000100_00000010_10000001_00000000#32 = .ok (.copy 2 129) := by decide

/-- The second table of section 3.9, `NCTX = 2`. -/
theorem test_verdicts :
    verdict 2 0x01000000#32 = .command (.init 0) ∧ verdict 2 0x0201FFFF#32 = .command (.absorb 1 65535) ∧
    verdict 2 0x02000000#32 = .command (.absorb 0 0) ∧ verdict 2 0x03010000#32 = .command (.digest 1) ∧
    verdict 2 0x04000100#32 = .command (.copy 0 1) ∧ verdict 2 0x05000000#32 = .faulted .illegalOpcode ∧
    verdict 2 0xFFFFFFFF#32 = .faulted .illegalOpcode ∧ verdict 2 0x01000001#32 = .faulted .reservedField ∧
    verdict 2 0x01020001#32 = .faulted .reservedField ∧ verdict 2 0x03020000#32 = .faulted .badContext ∧
    verdict 2 0x01FF0000#32 = .faulted .badContext ∧ verdict 2 0x04000200#32 = .faulted .badContext ∧
    verdict 2 0x04020000#32 = .faulted .badContext ∧ verdict 2 0x02050003#32 = .faultedAbsorb .badContext 3 := by decide

/-- The numbering of opcode_table.json: bit 0 of the word is bit 0 of the number. -/
theorem test_decodeTableWord :
    decodeTableWord 32 0x04FFFE00 = some (.copy 255 254) ∧ decodeTableWord 32 0x04010001 = none := by decide

/-- The word placed by `withFetchWord` is run by the very next step, as the first command after reset. -/
theorem test_withFetchWord_digest :
    step (State.reset.withFetchWord 32 0x03000000) = exec (.digest 0) State.reset := by rfl

/-- The same for an `ABSORB`, whose payload bytes are placed too (log 10). -/
theorem test_withFetchWord_absorb :
    answers (step (State.reset.withFetchWord 32 0x02010003)) (fun t =>
      decide (t.ctxs[1]? = some ⟨iv, [0, 0, 0], 3#64, false⟩ ∧ t.cmd = [] ∧ t.din = [])) = true := by decide

/-! ## Assembler lines (R71) -/

/-- `ABSORB 0, "abc" ; x` is the word `02000003` and the bytes `61 62 63` (R71's example, with a comment). -/
theorem test_assemble_absorb :
    (readLine (['A', 'B', 'S', 'O', 'R', 'B', ' ', '0', ',', ' ', Char.ofNat 34, 'a', 'b', 'c', Char.ofNat 34, ' ', ';', 'x'])).map
      (fun l => l.bind Line.assemble) = some (some [(0x02000003#32, [0x61, 0x62, 0x63])]) := by decide

/-- `COPY 1, 0` is the word `04010000`: the destination comes first (R71). -/
theorem test_assemble_copy :
    (readLine ['C', 'O', 'P', 'Y', ' ', '1', ',', ' ', '0']).map (fun l => l.bind Line.assemble) =
      some (some [(0x04010000#32, [])]) := by decide

/-- `ABSORB 1, x"00fF" * 2`: hex pairs, repeated (R71). -/
theorem test_assemble_repeat :
    (readLine ['A', 'B', 'S', 'O', 'R', 'B', ' ', '1', ',', ' ', 'x', Char.ofNat 34, '0', '0', 'f', 'F', Char.ofNat 34, ' ', '*', ' ',
      '2']).map (fun l => l.bind Line.assemble) = some (some [(0x02010004#32, [0x00, 0xff, 0x00, 0xff])]) := by decide

/-- `ABSORB 0, x"3f 40"`: a blank between pairs, as section 3.8 writes it (log 14). -/
theorem test_assemble_hex_blank :
    (readLine ['A', 'B', 'S', 'O', 'R', 'B', ' ', '0', ',', ' ', 'x', Char.ofNat 34, '3', 'f', ' ', '4', '0', Char.ofNat 34]).map
      (fun l => l.bind Line.assemble) = some (some [(0x02000002#32, [0x3f, 0x40])]) := by decide

/-- A blank inside a pair makes no payload, and neither does an odd number of digits. -/
theorem test_hex_rejected : readHex ['3', ' ', 'f', '4'] = none ∧ readHex ['3', 'f', ' ', '4'] = none := by decide

/-! ## Words, bytes, functions, rounds (sections 3.1 to 3.6, V1, V2) -/

/-- Section 3.1. -/
theorem test_rol32 :
    rol32 0x80000000#32 1 = 0x00000001#32 ∧ rol32 0x00000001#32 31 = 0x80000000#32 ∧ rol32 0x12345678#32 5 = 0x468ACF02#32 ∧
    rol32 0x12345678#32 15 = 0x2B3C091A#32 ∧ rol32 0x98BADCFE#32 10 = 0xEB73FA62#32 ∧
    rol32 0xDEADBEEF#32 16 = 0xBEEFDEAD#32 := by decide

/-- Section 3.1: sums and complement. -/
theorem test_add32_not32 :
    (0x67452301#32 + 0xEFCDAB89#32 + 0x98BADCFE#32 : Word) = 0xEFCDAB88#32 ∧ (0x80000000#32 + 0x80000000#32 : Word) = 0#32 ∧
    (~~~0x98BADCFE#32 : Word) = 0x67452301#32 := by decide

/-- Section 3.2. -/
theorem test_byte_order :
    le32 0x61 0x62 0x63 0x80 = 0x80636261#32 ∧ bytes32 0xA585119C#32 = [0x9c, 0x11, 0x85, 0xa5] ∧
    bytes64 0x00000000007A1200#64 = [0x00, 0x12, 0x7a, 0, 0, 0, 0, 0] ∧ loadw seqBlock 7 = 0x1F1E1D1C#32 ∧
    loadw seqBlock 15 = 0x3F3E3D3C#32 ∧
    ser iv = [0x01, 0x23, 0x45, 0x67, 0x89, 0xab, 0xcd, 0xef, 0xfe, 0xdc, 0xba, 0x98, 0x76, 0x54, 0x32, 0x10, 0xf0, 0xe1, 0xd2,
      0xc3] := by decide

/-- Section 3.3, the second row. -/
theorem test_boolean_functions :
    let x := 0xEFCDAB89#32
    let y := 0x98BADCFE#32
    let z := 0x10325476#32
    f1 x y z = 0x67452301#32 ∧ f2 x y z = 0x98BADCFE#32 ∧ f3 x y z = 0xFFFFFFFF#32 ∧ f4 x y z = 0x88888888#32 ∧
    f5 x y z = 0x10325476#32 := by decide

/-- The message words of the block of V1: `X[0] = 00000080`, all others zero. -/
def emptyWords (i : Fin 16) : Word := if i.val = 0 then 0x00000080#32 else 0#32

/-- V1, round 0 from `IV`, both lines. -/
theorem test_round_0 :
    roundL emptyWords 0 (Work.ofRegs iv) = ⟨0xC3D2E1F0#32, 0x1606F864#32, 0xEFCDAB89#32, 0xEB73FA62#32, 0x10325476#32⟩ ∧
    roundR emptyWords 0 (Work.ofRegs iv) = ⟨0xC3D2E1F0#32, 0xDDD63FB8#32, 0xEFCDAB89#32, 0xEB73FA62#32, 0x10325476#32⟩ := by
  decide +kernel

/-- V1, round 79 from the row of round 78, both lines. -/
theorem test_round_79 :
    roundL emptyWords 79 ⟨0x95AE0F56#32, 0xEBA027EB#32, 0x1EAE6737#32, 0xEC4DCDFF#32, 0x594637A7#32⟩ =
      ⟨0x594637A7#32, 0x215D97B3#32, 0xEBA027EB#32, 0xB99CDC7A#32, 0xEC4DCDFF#32⟩ ∧
    roundR emptyWords 79 ⟨0xFEF44B1D#32, 0xA8EA6AFE#32, 0x8A3285CF#32, 0x02A5304D#32, 0x9A8805EC#32⟩ =
      ⟨0x9A8805EC#32, 0x2BDCCEE7#32, 0xA8EA6AFE#32, 0xCA173E28#32, 0x02A5304D#32⟩ := by decide +kernel

/-- Section 3.5, the example that shows a wrong pairing. -/
theorem test_combine :
    combine ⟨0x1#32, 0x2#32, 0x3#32, 0x4#32, 0x5#32⟩ ⟨0x10#32, 0x20#32, 0x30#32, 0x40#32, 0x50#32⟩
      ⟨0x100#32, 0x200#32, 0x300#32, 0x400#32, 0x500#32⟩ =
      ⟨0x432#32, 0x543#32, 0x154#32, 0x215#32, 0x321#32⟩ := by decide

/-- Section 3.6, the last row: registers and block all ones. -/
theorem test_compress_ones :
    compress ⟨0xFFFFFFFF#32, 0xFFFFFFFF#32, 0xFFFFFFFF#32, 0xFFFFFFFF#32, 0xFFFFFFFF#32⟩ ⟨List.replicate 64 0xff, by decide⟩ =
      ⟨0xF282655D#32, 0xD3828CF1#32, 0x4FE5E0C5#32, 0xA3892B3E#32, 0xD14F6FCE#32⟩ := by decide +kernel

/-! ## Padding and length (sections 3.7 and 3.11) -/

/-- Section 3.7: 55 bytes leave room for the length field with no zero byte. -/
theorem test_pad_55 : pad (seq 55) 55#64 = seq 55 ++ [0x80, 0xb8, 0x01, 0, 0, 0, 0, 0, 0] := by decide +kernel
/-- Section 3.7: 56 bytes need a second block. -/
theorem test_pad_56 : pad (seq 56) 56#64 = seq 56 ++ [0x80] ++ zeros 63 ++ [0xc0, 0x01, 0, 0, 0, 0, 0, 0] := by decide +kernel
/-- Section 3.7: the length field comes from `len`, not from the buffer. -/
theorem test_pad_length_field : pad [0x01, 0x02] 66#64 = [0x01, 0x02, 0x80] ++ zeros 53 ++ [0x10, 0x02, 0, 0, 0, 0, 0, 0] := by
  decide +kernel
/-- Section 3.7: the bit length modulo 2^64 (`ff`, 2^61 + 1). -/
theorem test_pad_overflow :
    pad [0xff] 0x2000000000000001#64 = [0xff, 0x80] ++ zeros 54 ++ [0x08, 0, 0, 0, 0, 0, 0, 0] := by decide +kernel

/-- Section 3.11. -/
theorem test_length_rows :
    lenAfter 0x1FFFFFFFFFFFFFFE#64 1 = 0x1FFFFFFFFFFFFFFF#64 ∧ ovfAfter 0x1FFFFFFFFFFFFFFE#64 false 1 = false ∧
    lenAfter 0x1FFFFFFFFFFFFFFF#64 1 = 0x2000000000000000#64 ∧ ovfAfter 0x1FFFFFFFFFFFFFFF#64 false 1 = true ∧
    ovfAfter 0x1FFFFFFFFFFFFFFF#64 false 0 = false ∧ lenAfter 0xFFFFFFFFFFFFFFFF#64 2 = 1#64 ∧
    ovfAfter 1#64 true 5 = true ∧ lenAfter 1#64 5 = 6#64 := by decide

/-! ## One step of each command (section 3.8; P5 for the faults) -/

/-- `INIT 0` on a used context. -/
theorem test_init_used :
    answers (exec (.init 0) (holding ⟨⟨0x8EFDC33E#32, 0x7E696586#32, 0x14366E30#32, 0x78B5CDFB#32, 0x817AC904#32⟩, [0x80, 0x81],
      130#64, false⟩)) (fun t => decide (t = { State.reset with out := [.rsp 0x00000000#32] })) = true := by decide

/-- P5 step 12: `01020001` is `RESERVED_FIELD`, which outranks `BAD_CONTEXT`; both contexts as before. -/
theorem test_init_reserved_field :
    answers (step { holding abc with cmd := [0x01020001#32] }) (fun t =>
      decide (t = { holding abc with out := [.rsp 0x00000002#32] })) = true := by decide

/-- `ABSORB 0, x"3f 40"` with 63 bytes waiting: one compression, one byte left. -/
theorem test_absorb_completes_block :
    answers (step { holding (seqContext 63) with cmd := [0x02000002#32], din := [0x3f, 0x40] }) (fun t =>
      decide (t.ctxs[0]? = some ⟨⟨0xD6E08676#32, 0xA2E0EABA#32, 0xC4A552B7#32, 0x3B94ADCB#32, 0x54768374#32⟩, [0x40], 65#64, false⟩ ∧
        t.out = [.rsp 0x00000000#32] ∧ t.din = [])) = true := by decide +kernel

/-- P5 step 11: `ABSORB 5` takes its three bytes and drops them. -/
theorem test_absorb_bad_context :
    answers (step { holding abc with cmd := [0x02050003#32], din := [0x78, 0x79, 0x7a, 0x01] }) (fun t =>
      decide (t = { holding abc with din := [0x01], out := [.rsp 0x00000003#32] })) = true := by decide

/-- P1 step 2: the digest of "abc", before its response. -/
theorem test_digest_abc :
    answers (step { holding abc with cmd := [0x03000000#32] }) (fun t =>
      decide (t.ctxs = (holding abc).ctxs ∧
        t.out = ([0x8e, 0xb2, 0x08, 0xf7, 0xe0, 0x5d, 0x98, 0x7a, 0x9b, 0x04, 0x4a, 0x8e, 0x98, 0xc6, 0xb0, 0x87, 0xf1, 0x5a, 0x0b,
          0xfc].map Beat.dout) ++ [.rsp 0x00000000#32])) = true := by decide +kernel

/-- Section 4, `seq(56)`: two padding blocks. -/
theorem test_digest_two_blocks :
    (seqContext 56).digest = [0xeb, 0xdd, 0x79, 0xcf, 0xd4, 0xfd, 0x99, 0x49, 0xef, 0x80, 0x89, 0x67, 0x3d, 0x26, 0x20, 0x42, 0x7f,
      0x48, 0x7c, 0xfb] := by decide +kernel

/-- P3 step 2: `COPY 1, 0`. -/
theorem test_copy :
    answers (step { holding abc with cmd := [0x04010000#32] }) (fun t =>
      decide (t = { holding abc with ctxs := [abc, abc], out := [.rsp 0x00000000#32] })) = true := by decide

/-- P5 step 9: `COPY 0, 2` with two contexts. -/
theorem test_copy_bad_source :
    answers (step { holding abc with cmd := [0x04000200#32] }) (fun t =>
      decide (t = { holding abc with out := [.rsp 0x00000003#32] })) = true := by decide

/-! ## The holds and reset -/

/-- The four stuck states (R13, R173, R174; 93_implementation_defined.md U8). -/
theorem test_holds :
    stops (step State.reset) .awaitCommand = true ∧
    stops (step (offering 0x02000003#32 [0x61, 0x62])) .awaitPayload = true ∧
    stops (step { offering 0x01000000#32 [] with rspReady := false }) .awaitRspTaken = true ∧
    stops (step { offering 0x03000000#32 [] with doutReady := false }) .awaitDoutTaken = true := by decide

/-- R171: reset during an `ABSORB` after two of its three bytes: the word and the two bytes are gone, no response. -/
theorem test_reset_in_absorb :
    answers (step { holding abc with cmd := [0x02000003#32, 0x03000000#32], din := [1, 2, 3], rst := .inCommand 2 0 }) (fun t =>
      decide (t = { State.reset with cmd := [0x03000000#32], din := [3] })) = true := by decide

/-! ## Witnesses: states and operands that meet the hypotheses of each obligation, together -/

theorem abc_holds : abc.Holds [0x61, 0x62, 0x63] := ⟨by decide, by decide, by decide, by decide⟩

/-- Every context of the reset state has absorbed the empty stream. -/
theorem reset_tracks : State.reset.Tracks fun _ => [] := by
  intro c x h
  have hx : x ∈ List.replicate nctxAtReset Context.fresh := List.mem_of_getElem? h
  rw [List.eq_of_mem_replicate hx]
  exact Context.fresh_holds

theorem reset_inv : State.reset.Inv := ⟨⟨by decide, by decide⟩, fun c x h => ⟨[], reset_tracks c x h⟩⟩

/-- Well-formed commands at the greatest value of every operand. -/
theorem witness_DecodeOfEncodeIsIdentity :
    (Instr.init 255).wf = true ∧ (Instr.absorb 255 65535).wf = true ∧ (Instr.digest 255).wf = true ∧
    (Instr.copy 255 255).wf = true := by decide

theorem witness_EncodeOfDecodeIsIdentity : decode 0x04FFFF00#32 = .ok (.copy 255 255) := by decide

/-- A word that matches a row, and words that spell a command but name a context too many, `ABSORB` and another. -/
theorem witness_OpcodeMapRows :
    (rowOf (.copy 0 2)).spells 0x04000200#32 = true ∧ decode 0x04000200#32 = .ok (.copy 0 2) ∧ legalIn 2 (.copy 0 2) = false ∧
    decode 0x02050003#32 = .ok (.absorb 5 3) ∧ legalIn 2 (.absorb 5 3) = false := by decide

/-- A line that assembles; indices that fit at their greatest value; a payload that fits one `ABSORB` and one that does not. -/
theorem witness_AssembledLinesDecode :
    (Line.hash 0 (.text ['a', 'b', 'c'])).assemble =
      some [(0x01000000#32, []), (0x02000003#32, [0x61, 0x62, 0x63]), (0x03000000#32, [])] ∧
    (∀ c ∈ (Line.clone 255 255).indices, c < 256) ∧ (Payload.rep (.hex [0]) 65535).bytes.length ≤ 65535 ∧
    65535 < (Payload.rep (.hex [0]) 65536).bytes.length := by
  refine ⟨by decide, by decide, ?_, ?_⟩ <;> rw [Payload.length_rep] <;> decide

/-- A payload one byte longer than `COUNT` can say, and its first piece. -/
theorem witness_LongAbsorbSplitsIntoPieces :
    ∃ data : List Byte, ∃ p ∈ pieces data, 65535 < data.length ∧ 1 ≤ p.length :=
  ⟨zeros 65536, (zeros 65536).take 65535, by simp [pieces, piecesUpTo], by simp, by simp⟩

theorem witness_StepRunsDecodedCommand :
    let s := offering 0x02000003#32 [0x61, 0x62, 0x63]
    s.rst = .released ∧ s.cmd = [0x02000003#32] ∧ decode 0x02000003#32 = .ok (.absorb 0 3) ∧ (Instr.absorb 0 3).wf = true := by
  decide

/-- One word for each cause, and an `ABSORB` of a context too many with its payload there. -/
theorem witness_FaultingWordsLeaveNoTrace :
    (∀ w : Word, (offering w [1, 2, 3]).rst = .released ∧ (offering w [1, 2, 3]).cmd = [w] ∧
      (offering w [1, 2, 3]).rspReady = true ∧ (offering w [1, 2, 3]).nctx = 2) ∧
    verdict 2 0xFF123456#32 = .faulted .illegalOpcode ∧ verdict 2 0x03000100#32 = .faulted .reservedField ∧
    verdict 2 0x03020000#32 = .faulted .badContext ∧ verdict 2 0x02020003#32 = .faultedAbsorb .badContext 3 ∧
    3 ≤ (offering 0x02020003#32 [1, 2, 3]).din.length :=
  ⟨fun _ => ⟨rfl, rfl, rfl, rfl⟩, by decide, by decide, by decide, by decide, by decide⟩

theorem witness_SuppliedCommandCompletes :
    let s := offering 0x02000003#32 [0x61, 0x62, 0x63]
    s.rst = .released ∧ s.cmd = [0x02000003#32] ∧ s.HostTakes ∧
      ∀ i, decode 0x02000003#32 = .ok i → payloadCount i ≤ s.din.length := by
  refine ⟨by decide, by decide, ⟨by decide, by decide⟩, ?_⟩
  intro i h
  have hd : decode 0x02000003#32 = .ok (.absorb 0 3) := by decide
  cases hd.symm.trans h
  decide

/-- A step that completes, for each kind of word: a legal `DIGEST`, another legal command, a fault, a faulted `ABSORB`. -/
theorem witness_OneResponsePerCommand :
    (∀ w : Word, (offering w [1, 2, 3]).rst = .released ∧ (offering w [1, 2, 3]).cmd = [w] ∧
      (offering w [1, 2, 3]).nctx = 2) ∧
    (∃ t, step (offering 0x03010000#32 [1, 2, 3]) = .next t) ∧ verdict 2 0x03010000#32 = .command (.digest 1) ∧
    (∃ t, step (offering 0x04010000#32 [1, 2, 3]) = .next t) ∧ verdict 2 0x04010000#32 = .command (.copy 1 0) ∧
    (∃ t, step (offering 0x05000000#32 [1, 2, 3]) = .next t) ∧ verdict 2 0x05000000#32 = .faulted .illegalOpcode ∧
    (∃ t, step (offering 0x02020003#32 [1, 2, 3]) = .next t) ∧ verdict 2 0x02020003#32 = .faultedAbsorb .badContext 3 :=
  ⟨fun _ => ⟨rfl, rfl, rfl⟩, ⟨_, rfl⟩, by decide, ⟨_, rfl⟩, by decide, ⟨_, rfl⟩, by decide, ⟨_, rfl⟩, by decide⟩

/-- An `ABSORB` that takes all that waits, one that takes nothing, and a word that is no `ABSORB`. -/
theorem witness_PayloadBytesTaken :
    (∀ w : Word, (offering w [1, 2, 3]).rst = .released ∧ (offering w [1, 2, 3]).cmd = [w]) ∧
    (∃ t, step (offering 0x02000003#32 [1, 2, 3]) = .next t) ∧ opcOf 0x02000003#32 = 2 ∧
    (∃ t, step (offering 0x02000000#32 [1, 2, 3]) = .next t) ∧ opcOf 0x02000000#32 = 2 ∧
    (∃ t, step (offering 0x03000000#32 [1, 2, 3]) = .next t) ∧ opcOf 0x03000000#32 ≠ 2 :=
  ⟨fun _ => ⟨rfl, rfl⟩, ⟨_, rfl⟩, by decide, ⟨_, rfl⟩, by decide, ⟨_, rfl⟩, by decide⟩

/-- The last slot of the largest engine. -/
theorem witness_ResetContextsAreFresh :
    255 < 256 ∧ 1 < State.reset.nctx ∧ State.reset.rspReady = true := by decide

/-- A pulse between commands, a pulse during an `ABSORB` and one during a `DIGEST`. -/
theorem witness_ResetPulseRestoresContexts :
    (State.reset.setRst .atIdle).rst ≠ .released ∧
    (let s := { offering 0x02000003#32 [1, 2, 3] with rst := ResetInput.inCommand 3 0 }
     s.rst = .inCommand 3 0 ∧ s.cmd = encode (.absorb 0 3) :: [] ∧ (Instr.absorb 0 3).wf = true) ∧
    (let s := { offering 0x03000000#32 [] with rst := ResetInput.inCommand 0 20 }
     s.rst = .inCommand 0 20 ∧ s.cmd = encode (.digest 0) :: [] ∧ (Instr.digest 0).wf = true ∧
      s.ctxs[0]? = some Context.fresh ∧ s.doutReady = true) := by decide

/-- A legal index and the first illegal one. -/
theorem witness_InitMakesContextFresh :
    State.reset.rspReady = true ∧ 1 < State.reset.nctx ∧ State.reset.nctx ≤ 2 := by decide

theorem witness_CopyCopiesWholeContext :
    (holding overflowed).rspReady = true ∧ 1 < (holding overflowed).nctx ∧ (holding overflowed).ctxs[0]? = some overflowed ∧
    (holding overflowed).nctx ≤ 2 := by decide

theorem witness_CopyOntoItselfChangesNothing :
    (holding abc).rspReady = true ∧ (holding abc).ctxs[0]? = some abc := by decide

/-- A payload that completes a block in a legal context, and the first illegal index. -/
theorem witness_AbsorbCompressesCompletedBlocks :
    let s := { holding (seqContext 63) with din := [0x3f] }
    s.rspReady = true ∧ 1 ≤ s.din.length ∧ s.ctxs[0]? = some (seqContext 63) ∧ s.nctx ≤ 2 := by decide

theorem witness_AbsorbUpdatesLengthAndOverflow :
    let s := { holding overflowed with din := [0x3f] }
    s.rspReady = true ∧ 1 ≤ s.din.length ∧ s.ctxs[0]? = some overflowed := by decide

/-- A context that holds a stream, and the first illegal index. -/
theorem witness_EmptyAbsorbChangesNothing :
    (holding abc).rspReady = true ∧ (holding abc).ctxs[0]? = some abc ∧ abc.Holds [0x61, 0x62, 0x63] ∧ (holding abc).nctx ≤ 2 :=
  ⟨by decide, by decide, abc_holds, by decide⟩

/-- The longest payload that completes no block. -/
theorem witness_ShortAbsorbOnlyFillsBuffer :
    let s := { holding abc with din := seq 60 }
    s.rspReady = true ∧ 60 ≤ s.din.length ∧ s.ctxs[0]? = some abc ∧ abc.fill + 60 < 64 := by decide

/-- The fullest buffer. -/
theorem witness_ByteSerialAbsorbEqualsBatch : (seqContext 63).buf.wf := by decide

theorem witness_SplitAbsorbEqualsJoined :
    let s := { State.reset with din := [0x61, 0x62, 0x63] }
    s.rspReady = true ∧ 1 < s.nctx ∧ 1 + 2 ≤ s.din.length := by decide

/-- A context of one padding block, one of two, and the first illegal index. -/
theorem witness_DigestPadsCompressesAndDelivers :
    (holding (seqContext 55)).HostTakes ∧ (holding (seqContext 55)).ctxs[0]? = some (seqContext 55) ∧ (seqContext 55).buf.wf ∧
    (holding (seqContext 56)).HostTakes ∧ (holding (seqContext 56)).ctxs[0]? = some (seqContext 56) ∧ (seqContext 56).buf.wf ∧
    (holding (seqContext 56)).nctx ≤ 2 :=
  ⟨⟨rfl, rfl⟩, by decide, by decide, ⟨rfl, rfl⟩, by decide, by decide, by decide⟩

theorem witness_DigestIsNonDestructive : State.reset.HostTakes ∧ 1 < State.reset.nctx := ⟨⟨rfl, rfl⟩, by decide⟩

theorem witness_RemovingDigestChangesNothing :
    let s := { State.reset with din := [0x61] }
    (∃ t, exec (.digest 1) s = .next t) ∧ ∃ u, exec (.absorb 1 1) s = .next u := ⟨⟨_, rfl⟩, ⟨_, rfl⟩⟩

theorem witness_OverflowedDigestStillDelivers :
    (holding overflowed).HostTakes ∧ (holding overflowed).ctxs[0]? = some overflowed ∧ overflowed.ovf = true :=
  ⟨⟨rfl, rfl⟩, by decide, rfl⟩

/-- The frame: a context not written; commutation: an `ABSORB` and a `COPY` that share no context, in four-slot file. -/
theorem witness_CommandsTouchOnlyNamedContexts :
    (∃ t, exec (.absorb 0 1) { State.reset with din := [0x61] } = .next t) ∧ writtenContext (.absorb 0 1) ≠ some 1 ∧
    (∀ c ∈ namedContexts (.absorb 0 1), c ∉ namedContexts (.copy 2 3)) ∧
    let s := State.resetWith 4
    ∃ s1 s2 t1 t2, exec (.absorb 0 1) (s.setDin [0x61]) = .next s1 ∧ exec (.copy 2 3) (s1.setDin []) = .next s2 ∧
      exec (.copy 2 3) (s.setDin []) = .next t1 ∧ exec (.absorb 0 1) (t1.setDin [0x61]) = .next t2 :=
  ⟨⟨_, rfl⟩, by decide, by decide, _, _, _, _, rfl, rfl, rfl, rfl⟩

/-- Two states that differ in the context that `ABSORB 1` does not name and in `DIN` behind its payload. -/
theorem witness_CommandsLearnOnlyNamedContexts :
    let s := (holding abc).setDin [0x61, 0x01]
    let s' := (holding overflowed).setDin [0x61, 0x02, 0x03]
    s.nctx = s'.nctx ∧ s.din.take (payloadCount (.absorb 1 1)) = s'.din.take (payloadCount (.absorb 1 1)) ∧
    (∀ c ∈ namedContexts (.absorb 1 1), s.ctxs[c]? = s'.ctxs[c]?) ∧ (∃ t, exec (.absorb 1 1) s = .next t) ∧
    (∃ t', exec (.absorb 1 1) s' = .next t') ∧ s'.HostTakes ∧ s.ctxs[0]? ≠ s'.ctxs[0]? ∧ s.din ≠ s'.din :=
  ⟨by decide, by decide, by decide, ⟨_, rfl⟩, ⟨_, rfl⟩, ⟨rfl, rfl⟩, by decide, by decide⟩

theorem witness_InitDigestCopyIdempotent :
    (∀ c n, Instr.copy 1 0 ≠ .absorb c n) ∧ ∃ t, exec (.copy 1 0) (holding abc) = .next t :=
  ⟨by intros; simp, _, rfl⟩

/-- The overflowed context is the destination of a `COPY` from an overflowed one (itself). -/
theorem witness_OverflowFlagIsSticky :
    (∃ t, exec (.copy 0 0) (holding overflowed) = .next t) ∧ (holding overflowed).ctxs[0]? = some overflowed ∧
    overflowed.ovf = true ∧ Instr.copy 0 0 ≠ .init 0 ∧
    ∀ src y, Instr.copy 0 0 = .copy 0 src → (holding overflowed).ctxs[src]? = some y → y.ovf = true := by
  refine ⟨⟨_, rfl⟩, rfl, rfl, by decide, ?_⟩
  intro src y h hy
  cases h
  cases hy
  rfl

/-- The top bit of a word. -/
theorem witness_BooleanFunctionsTruthTable : 31 < 32 := by decide

/-- The clauses of the table laws at their last rounds. -/
theorem witness_TablesObeyStructuralLaws :
    (15 : Fin 80).val < 16 ∧ (79 : Fin 80).val = (63 : Fin 80).val + 16 ∧ (subRound 79).val = (3 : Fin 4).val + 1 ∧
    (subRound 63).val = (3 : Fin 4).val := by decide

/-- The last byte of the last word. -/
theorem witness_MessageWordsAreLittleEndian : 3 < 4 ∧ seqBlock.val[4 * (15 : Fin 16).val + 3]? = some 0x3f := by decide

/-- 55 waiting bytes: the least number of zeros, 0, and a greater one that fits as well; 56 and 63, with two blocks. -/
theorem witness_PadFillsWholeBlocks :
    (55 + 1 + 0) % 64 = 56 ∧ (55 + 1 + 64) % 64 = 56 ∧ (seq 55).length ≤ 63 ∧ (seq 55).length ≤ 55 ∧ (seq 56).length ≤ 63 ∧
    ¬ (seq 56).length ≤ 55 ∧ (seq 63).length ≤ 63 := by decide

/-- Each clause at its edges, on both sides of the 55 to 56 boundary: the last buffer byte, the marker, the first and the last
zero byte, the first and the last byte of the length field. -/
theorem witness_PadLayoutByOffset :
    (seq 54).length ≤ 63 ∧ (pad (seq 54) 54#64)[53]? = some 53 ∧ (pad (seq 54) 54#64)[54]? = some 0x80 ∧
    (pad (seq 54) 54#64)[55]? = some 0 ∧ (pad (seq 54) 54#64)[56]? = some 0xb0 ∧ (pad (seq 54) 54#64)[63]? = some 0 ∧
    (seq 56).length ≤ 63 ∧ (pad (seq 56) 56#64)[55]? = some 55 ∧ (pad (seq 56) 56#64)[56]? = some 0x80 ∧
    (pad (seq 56) 56#64)[57]? = some 0 ∧ (pad (seq 56) 56#64)[119]? = some 0 ∧ (pad (seq 56) 56#64)[120]? = some 0xc0 ∧
    (pad (seq 56) 56#64)[127]? = some 0 ∧ (seq 63).length ≤ 63 ∧ (pad (seq 63) 63#64)[63]? = some 0x80 := by decide +kernel

/-- The final block of a padded copy. -/
theorem witness_LengthFieldIsLastTwoWords :
    (seq 56).length < 64 ∧ ∃ b : Block, b.val = (pad (seq 56) 56#64).drop ((pad (seq 56) 56#64).length - 64) := by
  have h : ((pad (seq 56) 56#64).drop ((pad (seq 56) 56#64).length - 64)).length = 64 := by decide +kernel
  refine ⟨by decide, ?_⟩
  generalize (pad (seq 56) 56#64).drop ((pad (seq 56) 56#64).length - 64) = l at h ⊢
  exact ⟨⟨l, h⟩, rfl⟩

theorem witness_BitLengthField : (0x1FFFFFFFFFFFFFFF#64 : DWord).toNat < 2 ^ 61 := by decide

theorem witness_SerialiserLayoutAndBijection :
    3 < 4 ∧ [iv.h0, iv.h1, iv.h2, iv.h3, iv.h4][4]? = some 0xC3D2E1F0#32 ∧ (ser iv).length = 20 := by decide

theorem witness_WordAndBytesAreInverse : bytes32 0x80636261#32 = [0x61, 0x62, 0x63, 0x80] := by decide

/-- A command step and a reset pulse, from a state that meets the invariant. -/
theorem witness_StepKeepsInv :
    (offering 0x01000000#32 []).Inv ∧ (∃ t, step (offering 0x01000000#32 []) = .next t) ∧
    (State.reset.setRst .atIdle).Inv ∧ ∃ t, step (State.reset.setRst .atIdle) = .next t :=
  ⟨reset_inv, ⟨_, rfl⟩, reset_inv, ⟨_, rfl⟩⟩

/-- The least and the greatest number of contexts. -/
theorem witness_ResetHasInv : (1 ≤ 1 ∧ 1 ≤ 256) ∧ 1 ≤ 256 ∧ 256 ≤ 256 := by decide

theorem witness_StepKeepsBuffersShort :
    (offering 0x02000001#32 [0x61]).BuffersShort ∧ ∃ t, step (offering 0x02000001#32 [0x61]) = .next t :=
  ⟨State.resetWith_buffersShort 2, _, rfl⟩

/-- An `ABSORB` and a `DIGEST` of a tracked state. -/
theorem witness_ExecRefinesStreams :
    (State.reset.setDin [0x61]).Tracks (fun _ => []) ∧ legalIn (State.reset.setDin [0x61]).nctx (.absorb 0 1) = true ∧
    (∃ t, exec (.absorb 0 1) (State.reset.setDin [0x61]) = .next t) ∧
    State.reset.Tracks (fun _ => []) ∧ legalIn State.reset.nctx (.digest 1) = true ∧
    (∃ t, exec (.digest 1) State.reset = .next t) ∧ ([] : List Byte).length < 2 ^ 61 :=
  ⟨reset_tracks, by decide, ⟨_, rfl⟩, reset_tracks, by decide, ⟨_, rfl⟩, by decide⟩

theorem witness_DigestIsRipemd160OfStream :
    abc.Holds [0x61, 0x62, 0x63] ∧ ([0x61, 0x62, 0x63] : List Byte).length < 2 ^ 61 := ⟨abc_holds, by decide⟩

theorem witness_PiecewiseDigestIsRipemd160 : ([[0x61], [], [0x62, 0x63]] : List (List Byte)).flatten.length < 2 ^ 61 := by decide

/-- A payload of one piece with a surplus byte behind it, and one byte more than one piece can hold. -/
theorem witness_HashDeliversRipemd160 :
    (let p := Payload.text ['a', 'b', 'c']
     let s := (holding overflowed).setDin [0x61, 0x62, 0x63, 0xff]
     s.HostTakes ∧ 0 < s.nctx ∧ s.din = p.bytes ++ [0xff] ∧ p.bytes.length < 2 ^ 61) ∧
    (let p := Payload.rep (.hex [0]) 65536
     let s := State.reset.setDin (p.bytes ++ [])
     s.HostTakes ∧ 1 < s.nctx ∧ s.din = p.bytes ++ [] ∧ p.bytes.length = 65536) :=
  ⟨⟨⟨rfl, rfl⟩, by decide, by decide, by decide⟩, ⟨rfl, rfl⟩, by decide, rfl, Payload.length_rep _ _⟩

theorem witness_ClonesAreIndependent :
    let s := { holding abc with din := [0x64] }
    s.HostTakes ∧ 1 ≠ 0 ∧ 1 < s.nctx ∧ s.ctxs[0]? = some abc ∧ abc.Holds [0x61, 0x62, 0x63] ∧ 1 ≤ s.din.length ∧
      ([0x61, 0x62, 0x63] : List Byte).length + 1 < 2 ^ 61 :=
  ⟨⟨rfl, rfl⟩, by decide, by decide, rfl, abc_holds, by decide, by decide⟩

end Sys2Proof.Tests
end

/-! # Proofs of the family 00_scope: the step as a whole, LE32 and bytes32, the invariant -/

namespace Sys2Proof.Machine

/-! ### What a step can do -/

theorem step_of_released {s : State} (h : s.rst = .released) : step s = acceptCommand s := by
  simp [step, h]

theorem acceptCommand_of_cons {s : State} {w : Word} {ws : List Word} (h : s.cmd = w :: ws) :
    acceptCommand s = runWord w (s.setCmd ws) := by
  simp [acceptCommand, h]

theorem runWord_of_ok {w : Word} {i : Instr} (h : decode w = .ok i) (s : State) : runWord w s = exec i s := by
  simp [runWord, h]

theorem runWord_of_error {w : Word} {cause : Cause} (h : decode w = .error cause) (s : State) :
    runWord w s = raiseFault cause s := by
  simp [runWord, h]

theorem runWord_cases {w : Word} {s t : State} (h : runWord w s = .next t) :
    (∃ i, decode w = .ok i ∧ exec i s = .next t) ∨ ∃ cause, decode w = .error cause ∧ raiseFault cause s = .next t := by
  cases hd : decode w with
  | ok i => exact .inl ⟨i, rfl, runWord_of_ok hd s ▸ h⟩
  | error cause => exact .inr ⟨cause, rfl, runWord_of_error hd s ▸ h⟩

theorem acceptCommand_cases {s t : State} (h : acceptCommand s = .next t) :
    ∃ w ws, s.cmd = w :: ws ∧ runWord w (s.setCmd ws) = .next t := by
  cases hc : s.cmd with
  | nil => simp [acceptCommand, hc] at h
  | cons w ws => exact ⟨w, ws, rfl, acceptCommand_of_cons hc ▸ h⟩

/-- A step that completes is a command word run (R13) or a pulse of the reset input (R170, R171). -/
theorem step_cases {s t : State} (h : step s = .next t) :
    (s.rst = .released ∧ ∃ w ws, s.cmd = w :: ws ∧ runWord w (s.setCmd ws) = .next t) ∨
    (s.rst = .atIdle ∧ t = freshContexts s) ∨
    ∃ took gave, s.rst = .inCommand took gave ∧ t = freshContexts (abandonCommand took gave s) := by
  cases hr : s.rst with
  | released => exact .inl ⟨rfl, acceptCommand_cases (step_of_released hr ▸ h)⟩
  | atIdle =>
    simp only [step, hr, Host.Outcome.next.injEq] at h
    exact .inr (.inl ⟨rfl, h.symm⟩)
  | inCommand took gave =>
    simp only [step, hr, Host.Outcome.next.injEq] at h
    exact .inr (.inr ⟨took, gave, rfl, h.symm⟩)

/-! ### What a step can do to the context file -/

/-- The values a command can write into a slot, given the contexts before it: `INIT`'s, `COPY`'s and `ABSORB`'s (R27). -/
inductive WrittenFrom (xs : List Context) : Context → Prop where
  | fresh : WrittenFrom xs Context.fresh
  | copied {y : Context} (hy : y ∈ xs) : WrittenFrom xs y
  | absorbed {y : Context} (hy : y ∈ xs) (d : List Byte) : WrittenFrom xs (y.absorb d)

/-- A command leaves the context file as it is or writes one slot of it (R27). -/
theorem exec_ctxs_cases {i : Instr} {s t : State} (h : exec i s = .next t) :
    t.ctxs = s.ctxs ∨ ∃ c x, t.ctxs = s.ctxs.set c x ∧ WrittenFrom s.ctxs x := by
  cases i with
  | init c =>
    rcases exec_init_cases h with ⟨-, rfl⟩ | ⟨-, rfl⟩
    · exact .inr ⟨c, _, rfl, .fresh⟩
    · exact .inl rfl
  | absorb c n =>
    obtain ⟨-, ⟨x, hx, rfl⟩ | ⟨-, rfl⟩⟩ := exec_absorb_cases h
    · exact .inr ⟨c, _, rfl, .absorbed (List.mem_of_getElem? hx) _⟩
    · exact .inl rfl
  | digest c =>
    rcases exec_digest_cases h with ⟨x, -, rfl⟩ | ⟨-, rfl⟩ <;> exact .inl rfl
  | copy d src =>
    rcases exec_copy_cases h with ⟨y, -, hy, rfl⟩ | ⟨-, rfl⟩
    · exact .inr ⟨d, y, rfl, .copied (List.mem_of_getElem? hy)⟩
    · exact .inl rfl

theorem runWord_ctxs_cases {w : Word} {s t : State} (h : runWord w s = .next t) :
    t.ctxs = s.ctxs ∨ ∃ c x, t.ctxs = s.ctxs.set c x ∧ WrittenFrom s.ctxs x := by
  rcases runWord_cases h with ⟨i, -, hi⟩ | ⟨cause, -, hf⟩
  · exact exec_ctxs_cases hi
  · obtain ⟨-, rfl⟩ := raiseFault_eq_next.mp hf
    exact .inl rfl

/-- A step leaves the context file as it is, writes one slot of it, or makes every context fresh (R27, R170). -/
theorem step_ctxs_cases {s t : State} (h : step s = .next t) :
    t.ctxs = s.ctxs ∨ (∃ c x, t.ctxs = s.ctxs.set c x ∧ WrittenFrom s.ctxs x) ∨
    t.ctxs = List.replicate s.nctx Context.fresh := by
  rcases step_cases h with ⟨-, w, ws, -, hw⟩ | ⟨-, rfl⟩ | ⟨took, gave, -, rfl⟩
  · exact (runWord_ctxs_cases hw).imp_right .inl
  · exact .inr (.inr rfl)
  · exact .inr (.inr rfl)

/-- No step changes the number of contexts (R6). -/
theorem step_nctx {s t : State} (h : step s = .next t) : t.nctx = s.nctx := by
  rcases step_ctxs_cases h with ht | ⟨c, x, ht, -⟩ | ht <;> simp [State.nctx, ht]

/-- What a fresh context has and `ABSORB` keeps, every step keeps for all contexts: no command writes a value of another kind. -/
theorem step_keeps_forall_ctxs {P : Context → Prop} (hfresh : P Context.fresh)
    (habsorb : ∀ (x : Context) (d : List Byte), P x → P (x.absorb d)) {s t : State} (hs : ∀ x ∈ s.ctxs, P x)
    (h : step s = .next t) : ∀ x ∈ t.ctxs, P x := by
  intro x hx
  rcases step_ctxs_cases h with ht | ⟨c, y, ht, hy⟩ | ht <;> rw [ht] at hx
  · exact hs x hx
  · rcases List.mem_or_eq_of_mem_set hx with hx | rfl
    · exact hs x hx
    · cases hy with
      | fresh => exact hfresh
      | copied hy => exact hs _ hy
      | absorbed hy d => exact habsorb _ d (hs _ hy)
  · exact List.eq_of_mem_replicate hx ▸ hfresh

/-! ### The invariant -/

/-- `OVF` stays exact over `ABSORB`: while it is clear, `LEN` is the length itself and not its remainder (R24, R25, R113). -/
theorem ovfAfter_ofNat {n : Nat} {ovf : Bool} (h : ovf = true ↔ 2 ^ 61 ≤ n) (k : Nat) :
    ovfAfter (BitVec.ofNat 64 n) ovf k = true ↔ 2 ^ 61 ≤ n + k := by
  simp only [ovfAfter, Bool.or_eq_true, decide_eq_true_eq, h, BitVec.toNat_ofNat]
  omega

theorem lenAfter_ofNat (n k : Nat) : lenAfter (BitVec.ofNat 64 n) k = BitVec.ofNat 64 (n + k) := by
  simp only [lenAfter, BitVec.toNat_ofNat]
  apply BitVec.eq_of_toNat_eq
  simp only [BitVec.toNat_ofNat]
  omega

/-- Absorbing `d` on top of the stream `m` holds the stream `m ++ d` (R26, R111, R113). -/
theorem Context.Holds.absorb {x : Context} {m : List Byte} (h : x.Holds m) (d : List Byte) :
    (x.absorb d).Holds (m ++ d) where
  regs := by rw [Context.absorb_regs, h.regs, h.buf, ← foldBlocks_append]
  buf := by rw [Context.absorb_buf, h.buf, ← tailOf_append]
  len := by rw [Context.absorb_len, h.len, lenAfter_ofNat, List.length_append]
  ovf := by rw [Context.absorb_ovf, h.len, ovfAfter_ofNat h.ovf, List.length_append]

/-- The invariant speaks of the contexts of the file, whatever their slots. -/
theorem State.inv_iff {s : State} : s.Inv ↔ s.LegalSize ∧ ∀ x ∈ s.ctxs, ∃ m, x.Holds m := by
  simp only [State.Inv, List.mem_iff_getElem?, forall_exists_index]
  exact and_congr_right' forall_comm

/-- Settles O44: no step changes the number of contexts, and a written context holds the empty stream, the stream of the
source, or its own extended by the payload. -/
theorem stepKeepsInv : Obligations.StepKeepsInv := by
  intro s t hs h
  obtain ⟨hsize, hholds⟩ := State.inv_iff.mp hs
  have habsorb : ∀ (x : Context) (d : List Byte), (∃ m, x.Holds m) → ∃ m, (x.absorb d).Holds m :=
    fun _ d ⟨m, hm⟩ => ⟨m ++ d, hm.absorb d⟩
  refine State.inv_iff.mpr ⟨?_, step_keeps_forall_ctxs ⟨[], Context.fresh_holds⟩ habsorb hholds h⟩
  rwa [State.LegalSize, step_nctx h]

@[simp] theorem State.nctx_resetWith (n : Nat) : (State.resetWith n).nctx = n := List.length_replicate

theorem State.resetWith_inv {n : Nat} (hn : 1 ≤ n) (hn' : n ≤ 256) : (State.resetWith n).Inv := by
  refine State.inv_iff.mpr ⟨?_, fun x hx => ⟨[], ?_⟩⟩
  · simp only [State.LegalSize, State.nctx_resetWith]
    exact ⟨hn, hn'⟩
  · exact List.eq_of_mem_replicate hx ▸ Context.fresh_holds

/-- Settles O45: a fresh context holds the empty stream, and the model's own reset has 2 contexts. -/
theorem resetHasInv : Obligations.ResetHasInv :=
  ⟨fun _ hn hn' => State.resetWith_inv hn hn', State.resetWith_inv (by decide) (by decide)⟩

/-! ### The step of a decoded word -/

/-- Settles O8: with reset released the step takes the word at the head of `CMD` and runs what it decodes to. -/
theorem stepRunsDecodedCommand : Obligations.StepRunsDecodedCommand := by
  intro s w ws i hrst hcmd hdec _
  rw [step_of_released hrst, acceptCommand_of_cons hcmd, runWord_of_ok hdec]

/-! ### LE32 and bytes32 -/

theorem bytes32_le32 (b0 b1 b2 b3 : Byte) : bytes32 (le32 b0 b1 b2 b3) = [b0, b1, b2, b3] := by
  have h0 := b0.isLt
  have h1 := b1.isLt
  have h2 := b2.isLt
  have h3 := b3.isLt
  simp only [bytes32, List.cons.injEq, and_true, BitVec.toNat_eq, toNat_byteOf, toNat_le32]
  omega

theorem le32_byteOf (w : Word) : le32 (byteOf w 0) (byteOf w 1) (byteOf w 2) (byteOf w 3) = w := by
  have hw := w.isLt
  apply BitVec.eq_of_toNat_eq
  simp only [toNat_le32, toNat_byteOf]
  omega

/-- Settles O43: both ways the base 256 digits of the word are the bytes. -/
theorem wordAndBytesAreInverse : Obligations.WordAndBytesAreInverse := by
  refine ⟨bytes32_le32, fun w b0 b1 b2 b3 h => ?_⟩
  simp only [bytes32, List.cons.injEq] at h
  obtain ⟨rfl, rfl, rfl, rfl, -⟩ := h
  exact le32_byteOf w

end Sys2Proof.Machine

/-! # Proofs of the family 10_state: a command's effect as a function of what it names, frames, `OVF`, buffers, clones -/

namespace Sys2Proof.Machine

/-! ### The effect of a command -/

/-- What a completed command does besides taking its payload: the slot it writes, with the value, and the beats it issues. -/
structure Effect where
  write : Option (Nat × Context)
  beats : List Beat

/-- The effect of a command one of whose indices is `NCTX` or more (R66, R153). -/
def Effect.badContext : Effect := ⟨none, [.rsp 3#32]⟩

/-- The effect of a command, from the contexts it looks up and its payload alone (R27, R52); `exec` has this effect by
`eq_after_of_exec` and `exec_of_supplied`. -/
def effect (look : Nat → Option Context) (data : List Byte) : Instr → Effect
  | .init c =>
    match look c with
    | some _ => ⟨some (c, Context.fresh), [.rsp 0#32]⟩
    | none => .badContext
  | .absorb c _ =>
    match look c with
    | some x => ⟨some (c, x.absorb data), [.rsp (responseWord (.done (x.absorb data).ovf))]⟩
    | none => .badContext
  | .digest c =>
    match look c with
    | some x => ⟨none, x.digest.map Beat.dout ++ [.rsp (responseWord (.done x.ovf))]⟩
    | none => .badContext
  | .copy d src =>
    match look d, look src with
    | some _, some y => ⟨some (d, y), [.rsp (responseWord (.done y.ovf))]⟩
    | _, _ => .badContext

/-- A write of at most one slot of the context file. -/
def writeSlot (xs : List Context) : Option (Nat × Context) → List Context
  | none => xs
  | some (c, x) => xs.set c x

/-- The effect the command has on `s`. -/
def State.effectOf (s : State) (i : Instr) : Effect := effect (s.ctxs[·]?) (s.din.take (payloadCount i)) i

/-- The state a completed command leaves. -/
def State.after (s : State) (i : Instr) : State :=
  { s with
    ctxs := writeSlot s.ctxs (s.effectOf i).write
    din := s.din.drop (payloadCount i)
    out := s.out ++ (s.effectOf i).beats }

@[simp] theorem State.ctxs_after (s : State) (i : Instr) :
    (s.after i).ctxs = writeSlot s.ctxs (s.effectOf i).write := rfl
@[simp] theorem State.cmd_after (s : State) (i : Instr) : (s.after i).cmd = s.cmd := rfl
@[simp] theorem State.din_after (s : State) (i : Instr) : (s.after i).din = s.din.drop (payloadCount i) := rfl
@[simp] theorem State.out_after (s : State) (i : Instr) : (s.after i).out = s.out ++ (s.effectOf i).beats := rfl
@[simp] theorem State.rspReady_after (s : State) (i : Instr) : (s.after i).rspReady = s.rspReady := rfl
@[simp] theorem State.doutReady_after (s : State) (i : Instr) : (s.after i).doutReady = s.doutReady := rfl
@[simp] theorem State.rst_after (s : State) (i : Instr) : (s.after i).rst = s.rst := rfl

/-! ### The state each command leaves -/

theorem State.after_init {s : State} {c : Nat} {x : Context} (hx : s.ctxs[c]? = some x) :
    s.after (.init c) = (s.setCtx c Context.fresh).emit [.rsp 0#32] := by
  simp only [State.after, State.effectOf, effect, hx]
  rfl

theorem State.after_absorb {s : State} {c : Nat} {x : Context} (n : Nat) (hx : s.ctxs[c]? = some x) :
    s.after (.absorb c n) = ((s.setDin (s.din.drop n)).setCtx c (x.absorb (s.din.take n))).emit
      [.rsp (responseWord (.done (x.absorb (s.din.take n)).ovf))] := by
  simp only [State.after, State.effectOf, effect, hx]
  rfl

theorem State.after_digest {s : State} {c : Nat} {x : Context} (hx : s.ctxs[c]? = some x) :
    s.after (.digest c) = (s.emit (x.digest.map Beat.dout)).emit [.rsp (responseWord (.done x.ovf))] := by
  simp only [State.after, State.effectOf, effect, hx, State.emit, List.append_assoc]
  rfl

theorem State.after_copy {s : State} {d src : Nat} {y : Context} (hd : d < s.nctx) (hy : s.ctxs[src]? = some y) :
    s.after (.copy d src) = (s.setCtx d y).emit [.rsp (responseWord (.done y.ovf))] := by
  obtain ⟨x, hx⟩ := State.exists_ctx hd
  simp only [State.after, State.effectOf, effect, hx, hy]
  rfl

/-- A command that names an index of `NCTX` or more takes its payload and answers the fault (R153, R154). -/
theorem State.after_of_badContext {s : State} {i : Instr} {c : Nat} (hc : c ∈ namedContexts i) (h : s.nctx ≤ c) :
    s.after i = (s.setDin (s.din.drop (payloadCount i))).emit [.rsp 3#32] := by
  have hx : s.ctxs[c]? = none := List.getElem?_eq_none h
  have he : s.effectOf i = .badContext := by
    cases i with
    | copy d src =>
      simp only [namedContexts, List.mem_cons, List.not_mem_nil, or_false] at hc
      rcases hc with rfl | rfl
      · simp [State.effectOf, effect, hx]
      · cases hd : s.ctxs[d]? <;> simp [State.effectOf, effect, hx, hd]
    | _ =>
      cases List.mem_singleton.mp hc
      simp [State.effectOf, effect, hx]
  simp [State.after, he, Effect.badContext, writeSlot, State.setDin, State.emit]

/-- A command that completes has its payload. -/
theorem payload_le_of_exec {i : Instr} {s t : State} (h : exec i s = .next t) : payloadCount i ≤ s.din.length := by
  cases i with
  | absorb c n => exact (exec_absorb_cases h).1
  | _ => exact Nat.zero_le _

/-- A command that completes leaves the state with its effect. -/
theorem eq_after_of_exec {i : Instr} {s t : State} (h : exec i s = .next t) : t = s.after i := by
  cases i with
  | init c =>
    rcases exec_init_cases h with ⟨hc, rfl⟩ | ⟨hc, rfl⟩
    · obtain ⟨x, hx⟩ := State.exists_ctx hc
      exact (State.after_init hx).symm
    · exact (State.after_of_badContext (i := .init c) (List.mem_singleton_self c) hc).symm
  | absorb c n =>
    obtain ⟨-, ⟨x, hx, rfl⟩ | ⟨hc, rfl⟩⟩ := exec_absorb_cases h
    · exact (State.after_absorb n hx).symm
    · exact (State.after_of_badContext (i := .absorb c n) (List.mem_singleton_self c) hc).symm
  | digest c =>
    rcases exec_digest_cases h with ⟨x, hx, rfl⟩ | ⟨hc, rfl⟩
    · exact (State.after_digest hx).symm
    · exact (State.after_of_badContext (i := .digest c) (List.mem_singleton_self c) hc).symm
  | copy d src =>
    rcases exec_copy_cases h with ⟨y, hd, hy, rfl⟩ | ⟨hc | hc, rfl⟩
    · exact (State.after_copy hd hy).symm
    · exact (State.after_of_badContext (i := .copy d src) (by simp [namedContexts]) hc).symm
    · exact (State.after_of_badContext (i := .copy d src) (by simp [namedContexts]) hc).symm

/-! ### Completion -/

theorem exists_respond {s : State} (r : Response) (h : s.rspReady = true) : ∃ t, respond r s = .next t :=
  ⟨_, respond_of_ready h⟩

theorem exists_withContext {s : State} {k : Context → Outcome} (c : Nat) (h : s.rspReady = true)
    (hk : ∀ x, ∃ t, k x = .next t) : ∃ t, withContext c s k = .next t := by
  cases hx : s.ctxs[c]? with
  | some x => exact withContext_of_some hx ▸ hk x
  | none => exact withContext_of_none (List.getElem?_eq_none_iff.mp hx) ▸ exists_respond _ h

/-- A command completes when its payload has arrived and the host takes what it issues: the response, and for `DIGEST` the
digest bytes (R173, R174). -/
theorem exec_of_supplied {i : Instr} {s : State} (hr : s.rspReady = true) (hd : ∀ c, i = .digest c → s.doutReady = true)
    (hn : payloadCount i ≤ s.din.length) : exec i s = .next (s.after i) := by
  have hex : ∃ t, exec i s = .next t := by
    cases i with
    | init c => exact exists_withContext c hr fun _ => exists_respond _ hr
    | absorb c n =>
      rw [exec, execAbsorb, takePayload_of_le (n := n) hn]
      exact exists_withContext c hr fun _ => exists_respond _ hr
    | digest c =>
      refine exists_withContext c hr fun x => ?_
      rw [emitDout_of_ready (hd c rfl)]
      exact exists_respond _ hr
    | copy d src => exact exists_withContext d hr fun _ => exists_withContext src hr fun _ => exists_respond _ hr
  obtain ⟨t, ht⟩ := hex
  rw [ht, eq_after_of_exec ht]

theorem exec_of_hostTakes {i : Instr} {s : State} (h : s.HostTakes) (hn : payloadCount i ≤ s.din.length) :
    exec i s = .next (s.after i) :=
  exec_of_supplied h.1 (fun _ _ => h.2) hn

/-- Settles O10: a word that spells a command runs it, any other word is answered with its cause. -/
theorem suppliedCommandCompletes : Obligations.SuppliedCommandCompletes := by
  intro s w ws hrst hcmd hhost hpay
  rw [step_of_released hrst, acceptCommand_of_cons hcmd]
  cases hd : decode w with
  | ok i =>
    rw [runWord_of_ok hd]
    exact ⟨_, exec_of_hostTakes (s := s.setCmd ws) hhost (hpay i hd), rfl⟩
  | error cause =>
    rw [runWord_of_error hd]
    exact ⟨_, respond_of_ready (s := s.setCmd ws) hhost.1, rfl⟩

/-- Settles O14: both reset and `INIT` leave the fresh context. -/
theorem resetContextsAreFresh : Obligations.ResetContextsAreFresh := by
  intro n c hc
  have hreset : (State.resetWith n).ctxs[c]? = some Context.fresh := by simp [State.resetWith, hc]
  refine ⟨hreset, fun s hs hr => ⟨_, exec_of_supplied hr (by simp) (Nat.zero_le _), ?_⟩⟩
  obtain ⟨x, hx⟩ := State.exists_ctx hs
  rw [State.after_init hx, hreset]
  exact State.setCtx_same _ hs

/-! ### A payload that completes no block -/

theorem Context.absorb_regs_of_short {x : Context} {d : List Byte} (h : x.fill + d.length < 64) :
    (x.absorb d).regs = x.regs := by
  rw [Context.absorb_regs, foldBlocks_of_lt (by rwa [List.length_append])]

theorem Context.absorb_buf_of_short {x : Context} {d : List Byte} (h : x.fill + d.length < 64) :
    (x.absorb d).buf = x.buf ++ d := by
  rw [Context.absorb_buf, tailOf_of_lt (by rwa [List.length_append])]

/-- Settles O22: fewer than 64 bytes are their own tail and hold no block. -/
theorem shortAbsorbOnlyFillsBuffer : Obligations.ShortAbsorbOnlyFillsBuffer := by
  intro s c n x hr hn hx hshort
  have hlen : x.fill + (s.din.take n).length < 64 := by rwa [List.length_take_of_le hn]
  refine ⟨_, x.absorb (s.din.take n), exec_of_supplied hr (by simp) hn, ?_,
    Context.absorb_regs_of_short hlen, Context.absorb_buf_of_short hlen⟩
  rw [State.after_absorb n hx]
  exact State.setCtx_same _ (State.lt_nctx hx)

/-! ### What the effect reads and writes -/

/-- R27: the commands that write a slot, and the value each leaves in it. -/
theorem effect_write_cases {look : Nat → Option Context} {data : List Byte} {i : Instr} {d : Nat} {z : Context}
    (h : (effect look data i).write = some (d, z)) :
    (i = .init d ∧ z = Context.fresh) ∨
    (∃ n x, i = .absorb d n ∧ look d = some x ∧ z = x.absorb data) ∨
    ∃ src, i = .copy d src ∧ look src = some z := by
  cases i with
  | init c =>
    cases hc : look c <;> simp only [effect, hc, Effect.badContext, Option.some.injEq, Prod.mk.injEq, reduceCtorEq] at h
    obtain ⟨rfl, rfl⟩ := h
    exact .inl ⟨rfl, rfl⟩
  | absorb c n =>
    cases hc : look c <;> simp only [effect, hc, Effect.badContext, Option.some.injEq, Prod.mk.injEq, reduceCtorEq] at h
    obtain ⟨rfl, rfl⟩ := h
    exact .inr (.inl ⟨n, _, rfl, hc, rfl⟩)
  | digest c => cases hc : look c <;> simp [effect, hc, Effect.badContext] at h
  | copy c src =>
    cases hc : look c <;> cases hsrc : look src <;>
      simp only [effect, hc, hsrc, Effect.badContext, Option.some.injEq, Prod.mk.injEq, reduceCtorEq] at h
    obtain ⟨rfl, rfl⟩ := h
    exact .inr (.inr ⟨src, rfl, hsrc⟩)

theorem writtenContext_of_effect {look : Nat → Option Context} {data : List Byte} {i : Instr} {d : Nat} {z : Context}
    (h : (effect look data i).write = some (d, z)) : writtenContext i = some d := by
  rcases effect_write_cases h with ⟨rfl, -⟩ | ⟨n, x, rfl, -, -⟩ | ⟨src, rfl, -⟩ <;> rfl

/-- A command names the context it writes. -/
theorem mem_namedContexts_of_written {i : Instr} {c : Nat} (h : writtenContext i = some c) : c ∈ namedContexts i := by
  cases i <;> simp_all [writtenContext, namedContexts]

/-- R52: the effect reads no context but the named ones. -/
theorem effect_congr {look look' : Nat → Option Context} {i : Instr} (data : List Byte)
    (h : ∀ c ∈ namedContexts i, look c = look' c) : effect look data i = effect look' data i := by
  cases i with
  | copy d src =>
    have hd : look d = look' d := h d (by simp [namedContexts])
    have hsrc : look src = look' src := h src (by simp [namedContexts])
    simp [effect, hd, hsrc]
  | _ c =>
    have hc : look c = look' c := h c (by simp [namedContexts])
    simp [effect, hc]

/-! ### Writing one slot -/

@[simp] theorem length_writeSlot (xs : List Context) (w : Option (Nat × Context)) :
    (writeSlot xs w).length = xs.length := by
  cases w <;> simp [writeSlot]

theorem getElem?_writeSlot_of_ne {xs : List Context} {w : Option (Nat × Context)} {k : Nat}
    (h : ∀ c x, w = some (c, x) → c ≠ k) : (writeSlot xs w)[k]? = xs[k]? := by
  cases w with
  | none => rfl
  | some p => exact List.getElem?_set_ne (h p.1 p.2 rfl)

/-- The same write keeps two files of one length equal at a slot. -/
theorem getElem?_writeSlot_congr {xs ys : List Context} (w : Option (Nat × Context)) {k : Nat}
    (hlen : xs.length = ys.length) (h : xs[k]? = ys[k]?) : (writeSlot xs w)[k]? = (writeSlot ys w)[k]? := by
  cases w with
  | none => exact h
  | some p => simp only [writeSlot, List.getElem?_set, hlen, h]

theorem writeSlot_comm {xs : List Context} {v w : Option (Nat × Context)}
    (h : ∀ c x d y, v = some (c, x) → w = some (d, y) → c ≠ d) :
    writeSlot (writeSlot xs v) w = writeSlot (writeSlot xs w) v := by
  cases v with
  | none => rfl
  | some p =>
    cases w with
    | none => rfl
    | some q => exact List.set_comm _ _ (h p.1 p.2 q.1 q.2 rfl rfl)

/-! ### Frame and commutation -/

@[simp] theorem State.nctx_after (s : State) (i : Instr) : (s.after i).nctx = s.nctx := by simp [State.nctx]

/-- R27, R52: a context the command does not write keeps its value. -/
theorem State.getElem?_after_of_not_written {s : State} {i : Instr} {k : Nat} (h : writtenContext i ≠ some k) :
    (s.after i).ctxs[k]? = s.ctxs[k]? := by
  refine getElem?_writeSlot_of_ne fun c x hw hck => h ?_
  rw [writtenContext_of_effect hw, hck]

/-- A command's effect is the same after another that writes none of the contexts it names. -/
theorem State.effectOf_after {s : State} {i j : Instr} (di dj : List Byte)
    (h : ∀ c ∈ namedContexts i, c ∉ namedContexts j) :
    (((s.setDin dj).after j).setDin di).effectOf i = (s.setDin di).effectOf i :=
  effect_congr _ fun c hc =>
    State.getElem?_after_of_not_written (s := s.setDin dj) fun hw => h c hc (mem_namedContexts_of_written hw)

/-- Settles O30: the frame is read off the state a command leaves; two commands that share no context have the same effects in
either order, and these write different slots. -/
theorem commandsTouchOnlyNamedContexts : Obligations.CommandsTouchOnlyNamedContexts := by
  refine ⟨fun i s t h => ?_, fun i j s s1 s2 t1 t2 di dj hdisj h1 h2 h3 h4 => ?_⟩
  · cases eq_after_of_exec h
    exact ⟨fun k hk => State.getElem?_after_of_not_written hk, State.nctx_after s i, rfl, rfl, rfl, rfl, rfl, _, rfl⟩
  · cases eq_after_of_exec h1
    cases eq_after_of_exec h2
    cases eq_after_of_exec h3
    cases eq_after_of_exec h4
    have hi := State.effectOf_after (s := s) di dj hdisj
    have hj := State.effectOf_after (s := s) (i := j) dj di fun c hc hc' => hdisj c hc' hc
    refine ⟨?_, ((s.setDin di).effectOf i).beats, ((s.setDin dj).effectOf j).beats, rfl, ?_, rfl, ?_⟩
    · simp only [State.ctxs_after, State.ctxs_setDin, hi, hj]
      refine writeSlot_comm fun c x d y hv hw hcd => hdisj c ?_ ?_
      · exact mem_namedContexts_of_written (writtenContext_of_effect hv)
      · exact hcd ▸ mem_namedContexts_of_written (writtenContext_of_effect hw)
    · rw [State.out_after, hj, State.out_setDin]
    · rw [State.out_after, hi, State.out_setDin]

/-- Settles O31: states that agree on the named contexts and the payload give the command one and the same effect. -/
theorem commandsLearnOnlyNamedContexts : Obligations.CommandsLearnOnlyNamedContexts := by
  intro i s s' t hnctx hpay hctx h
  have heff : s.effectOf i = s'.effectOf i := by
    rw [State.effectOf, State.effectOf, hpay]
    exact effect_congr _ hctx
  refine ⟨fun t' h' => ?_, fun hhost => ⟨_, exec_of_hostTakes hhost ?_⟩⟩
  · cases eq_after_of_exec h
    cases eq_after_of_exec h'
    refine ⟨fun c hc => ?_, rfl, rfl, (s.effectOf i).beats, rfl, by rw [State.out_after, heff]⟩
    rw [State.ctxs_after, State.ctxs_after, heff]
    exact getElem?_writeSlot_congr _ hnctx (hctx c hc)
  · have hlen := congrArg List.length hpay
    have hle := payload_le_of_exec h
    simp only [List.length_take] at hlen
    omega

/-! ### The overflow flag -/

theorem Context.absorb_ovf_of_ovf {x : Context} (d : List Byte) (h : x.ovf = true) : (x.absorb d).ovf = true := by
  simp [ovfAfter, h]

/-- Settles O33: the value written over a context with `OVF` set is its own after more bytes, or a copied one. -/
theorem overflowFlagIsSticky : Obligations.OverflowFlagIsSticky := by
  intro i s t c x h hx hovf hinit hcopy
  cases eq_after_of_exec h
  by_cases hk : ∃ z, (s.effectOf i).write = some (c, z)
  · obtain ⟨z, hw⟩ := hk
    refine ⟨z, ?_, ?_⟩
    · rw [State.ctxs_after, hw]
      exact State.setCtx_same z (State.lt_nctx hx)
    · rcases effect_write_cases hw with ⟨hi, -⟩ | ⟨n, y, -, hy, rfl⟩ | ⟨src, hi, hz⟩
      · exact absurd hi hinit
      · cases hx.symm.trans hy
        exact Context.absorb_ovf_of_ovf _ hovf
      · exact hcopy src z hi hz
  · refine ⟨x, ?_, hovf⟩
    rw [State.ctxs_after, getElem?_writeSlot_of_ne, hx]
    rintro d z hw rfl
    exact hk ⟨z, hw⟩

/-! ### Buffers -/

theorem State.buffersShort_iff {s : State} : s.BuffersShort ↔ ∀ x ∈ s.ctxs, x.buf.wf := by
  simp only [State.BuffersShort, List.mem_iff_getElem?, forall_exists_index]
  exact forall_comm

/-- Settles O46: a fresh buffer is short, and `ABSORB` leaves a tail. -/
theorem stepKeepsBuffersShort : Obligations.StepKeepsBuffersShort := by
  intro s t hs h
  exact State.buffersShort_iff.mpr (step_keeps_forall_ctxs Context.fresh_buf_wf
    (fun x d _ => x.absorb_buf_wf d) (State.buffersShort_iff.mp hs) h)

/-! ### Digests of streams and clones -/

theorem bitlen_ofNat (n : Nat) : bitlen (BitVec.ofNat 64 n) = BitVec.ofNat 64 (8 * n) := by
  apply BitVec.eq_of_toNat_eq
  simp only [bitlen, BitVec.toNat_ofNat]
  omega

theorem zeroCount_length_tailOf (m : List Byte) : zeroCount (tailOf m).length = zeroCount m.length := by
  simp [zeroCount, length_tailOf]

/-- R134's closing formula: padding the tail and folding on from the registers is padding the whole stream. -/
theorem Context.Holds.digest_eq {x : Context} {m : List Byte} (h : x.Holds m) : x.digest = ripemd160 m := by
  have hpad : pad x.buf x.len =
      tailOf m ++ ([0x80#8] ++ zeros (zeroCount m.length) ++ bytes64 (BitVec.ofNat 64 (8 * m.length))) := by
    simp only [pad, h.buf, h.len, zeroCount_length_tailOf, bitlen_ofNat, List.append_assoc]
  rw [Context.digest, drain_eq, hpad, h.regs, ← foldBlocks_append]
  simp only [ripemd160, List.append_assoc]

theorem Context.Holds.ovf_eq_false {x : Context} {m : List Byte} (h : x.Holds m) (hm : m.length < 2 ^ 61) :
    x.ovf = false := by
  rw [Bool.eq_false_iff, Ne, h.ovf]
  omega

/-- `DIGEST` of a context that holds a stream of fewer than 2^61 bytes delivers its RIPEMD160 and responds 0. -/
theorem exec_digest_of_holds {s : State} {c : Nat} {x : Context} {m : List Byte} (hhost : s.HostTakes)
    (hx : s.ctxs[c]? = some x) (h : x.Holds m) (hm : m.length < 2 ^ 61) :
    exec (.digest c) s = .next (s.emit ((ripemd160 m).map Beat.dout ++ [.rsp 0#32])) := by
  rw [exec_of_hostTakes hhost (Nat.zero_le _), State.after_digest hx, h.digest_eq, h.ovf_eq_false hm]
  simp [State.emit, responseWord_done]

/-- `ABSORB` onto a context that holds a stream, below 2^61 bytes in all, responds 0. -/
theorem exec_absorb_of_holds {s : State} {c n : Nat} {x : Context} {m : List Byte} (hr : s.rspReady = true)
    (hx : s.ctxs[c]? = some x) (h : x.Holds m) (hn : n ≤ s.din.length) (hm : m.length + n < 2 ^ 61) :
    exec (.absorb c n) s =
      .next (((s.setDin (s.din.drop n)).setCtx c (x.absorb (s.din.take n))).emit [.rsp 0#32]) := by
  have hlen : (m ++ s.din.take n).length < 2 ^ 61 := by rwa [List.length_append, List.length_take_of_le hn]
  rw [exec_of_supplied (i := .absorb c n) hr (by simp) hn, State.after_absorb n hx, (h.absorb _).ovf_eq_false hlen]
  rfl

/-- `COPY` from a context that holds a stream of fewer than 2^61 bytes responds 0. -/
theorem exec_copy_of_holds {s : State} {d src : Nat} {y : Context} {m : List Byte} (hr : s.rspReady = true)
    (hd : d < s.nctx) (hy : s.ctxs[src]? = some y) (h : y.Holds m) (hm : m.length < 2 ^ 61) :
    exec (.copy d src) s = .next ((s.setCtx d y).emit [.rsp 0#32]) := by
  rw [exec_of_supplied hr (by simp) (Nat.zero_le _), State.after_copy hd hy, h.ovf_eq_false hm]
  rfl

/-- Settles O51: the copy holds the source's stream, `ABSORB` extends it in slot `d` alone, and each digest is that of the
stream its slot holds. -/
theorem clonesAreIndependent : Obligations.ClonesAreIndependent := by
  intro s d src n y m hhost hne hd hy hm hn hlen
  have hout : (m ++ s.din.take n).length < 2 ^ 61 := by rwa [List.length_append, List.length_take_of_le hn]
  have hsrc1 : (s.setCtx d y).ctxs[src]? = some y := (State.setCtx_other y hne).trans hy
  have hsrc2 (x : Context) : ((s.setCtx d y).setCtx d x).ctxs[src]? = some y := (State.setCtx_other x hne).trans hsrc1
  have hd2 (x : Context) : ((s.setCtx d y).setCtx d x).ctxs[d]? = some x :=
    State.setCtx_same x (by rwa [State.nctx_setCtx])
  refine ⟨_, _, _, _, exec_copy_of_holds hhost.1 hd hy hm (by omega),
    exec_absorb_of_holds hhost.1 (State.setCtx_same y hd) hm hn hlen,
    exec_digest_of_holds hhost (hsrc2 _) hm (by omega),
    exec_digest_of_holds hhost (hd2 _) (hm.absorb _) hout, hsrc2 _, ?_⟩
  simp

end Sys2Proof.Machine

/-! # Proofs of the family 20_memory: words and bytes of a block, the length field, `SER`, idempotent commands -/

namespace Sys2Proof.Machine

/-! ### The bytes of a word -/

theorem getElem?_bytes32 (w : Word) {n : Nat} (hn : n < 4) : (bytes32 w)[n]? = some (byteOf w n) := by
  interval_cases n <;> rfl

theorem bytes32_injective : Function.Injective bytes32 := fun w w' h =>
  (wordAndBytesAreInverse.2 w _ _ _ _ h).symm.trans (le32_byteOf w')

/-- A byte sequence that begins with a word determines the word and the rest. -/
theorem bytes32_append_inj {w w' : Word} {r r' : List Byte} :
    bytes32 w ++ r = bytes32 w' ++ r' ↔ w = w' ∧ r = r' := by
  constructor
  · exact fun h => (List.append_inj h rfl).imp_left fun hw => bytes32_injective hw
  · rintro ⟨rfl, rfl⟩
    rfl

/-- Byte `n` of word `i` stands at offset `4 i + n`. -/
theorem getElem?_flatMap_bytes32 (ws : List Word) (i : Nat) {n : Nat} (hn : n < 4) :
    (ws.flatMap bytes32)[4 * i + n]? = ws[i]?.map (byteOf · n) := by
  induction ws generalizing i with
  | nil => rfl
  | cons w ws ih =>
    rw [List.flatMap_cons]
    cases i with
    | zero =>
      rw [List.getElem?_append_left (by rwa [Nat.mul_zero, Nat.zero_add]), Nat.mul_zero, Nat.zero_add, getElem?_bytes32 w hn]
      rfl
    | succ i =>
      rw [List.getElem?_append_right (by rw [length_bytes32]; omega), length_bytes32, List.getElem?_cons_succ, ← ih i]
      congr 1
      omega

/-- A sequence whose length is a multiple of 4 spells words. -/
theorem exists_flatMap_bytes32 (k : Nat) (bs : List Byte) (h : bs.length = 4 * k) :
    ∃ ws : List Word, ws.length = k ∧ ws.flatMap bytes32 = bs := by
  induction k generalizing bs with
  | zero => exact ⟨[], rfl, (List.eq_nil_of_length_eq_zero h).symm⟩
  | succ k ih =>
    match bs, h with
    | b0 :: b1 :: b2 :: b3 :: r, h =>
      obtain ⟨ws, hlen, rfl⟩ := ih r (by simp only [List.length_cons] at h; omega)
      exact ⟨le32 b0 b1 b2 b3 :: ws, by rw [List.length_cons, hlen], by rw [List.flatMap_cons, bytes32_le32]; rfl⟩

/-! ### The words of a block -/

/-- From offset `4 i` on a block is the bytes of message word `i` and what follows them (R41). -/
theorem drop_block (b : Block) (i : Fin 16) :
    b.val.drop (4 * i.val) = bytes32 (loadw b i) ++ b.val.drop (4 * i.val + 4) := by
  have hb := b.property
  rw [List.drop_eq_getElem_cons (by omega), List.drop_eq_getElem_cons (by omega), List.drop_eq_getElem_cons (by omega),
    List.drop_eq_getElem_cons (by omega), loadw, bytes32_le32]
  rfl

theorem getElem?_block (b : Block) (i : Fin 16) {n : Nat} (hn : n < 4) :
    b.val[4 * i.val + n]? = some (byteOf (loadw b i) n) := by
  rw [← List.getElem?_drop, drop_block, List.getElem?_append_left hn, getElem?_bytes32 _ hn]

theorem loadw_of_drop {b : Block} {i : Fin 16} {w : Word} {r : List Byte} (h : b.val.drop (4 * i.val) = bytes32 w ++ r) :
    loadw b i = w :=
  (bytes32_append_inj.mp ((drop_block b i).symm.trans h)).1

/-- Settles O36: byte `n` of a word of the block is the block's byte at `4 i + n`, and every offset below 64 is such a place. -/
theorem messageWordsAreLittleEndian : Obligations.MessageWordsAreLittleEndian := by
  refine ⟨fun b i n v hn hv => ?_, fun b b' h => Subtype.ext (List.ext_getElem? fun k => ?_)⟩
  · rw [getElem?_block b i hn, Option.some.injEq] at hv
    rw [← hv, toNat_byteOf]
  · rcases Nat.lt_or_ge k 64 with hk | hk
    · have hoff : k = 4 * (⟨k / 4, by omega⟩ : Fin 16).val + k % 4 := (Nat.div_add_mod k 4).symm
      rw [hoff, getElem?_block b _ (Nat.mod_lt k (by decide)), getElem?_block b' _ (Nat.mod_lt k (by decide)), h]
    · rw [List.getElem?_eq_none (b.property.trans_le hk), List.getElem?_eq_none (b'.property.trans_le hk)]

/-! ### The length field -/

theorem toNat_highHalf (v : DWord) : ((v >>> 32).setWidth 32).toNat = v.toNat / 2 ^ 32 := by
  have hv := v.isLt
  rw [BitVec.toNat_setWidth, BitVec.toNat_ushiftRight, Nat.shiftRight_eq_div_pow]
  omega

theorem bytes64_eq_bytes32_append (v : DWord) :
    bytes64 v = bytes32 (v.setWidth 32) ++ bytes32 ((v >>> 32).setWidth 32) := by
  have hlow : (v.setWidth 32).toNat = v.toNat % 2 ^ 32 := BitVec.toNat_setWidth 32 v
  simp only [bytes64, bytes32, List.cons_append, List.nil_append, List.cons.injEq, and_true, BitVec.toNat_eq, toNat_byteOf,
    hlow, toNat_highHalf]
  omega

/-- The last 8 bytes of the padded sequence are the length field (R130). -/
theorem drop_pad (buf : List Byte) (len : DWord) :
    (pad buf len).drop ((pad buf len).length - 8) = bytes64 (bitlen len) :=
  List.drop_left' (by simp only [pad, List.length_append, length_bytes64, Nat.add_sub_cancel])

/-- R42: the last 8 bytes of the final block are the length field. -/
theorem drop_finalBlock {buf : List Byte} {len : DWord} {b : Block}
    (h : b.val = (pad buf len).drop ((pad buf len).length - 64)) : b.val.drop 56 = bytes64 (bitlen len) := by
  have hlen : (pad buf len).length - ((pad buf len).length - 64) = 64 := by rw [← List.length_drop, ← h, b.property]
  rw [h, List.drop_drop, ← drop_pad buf]
  congr 1
  omega

/-- Settles O40: the length field is two little-endian words at offsets 56 and 60. -/
theorem lengthFieldIsLastTwoWords : Obligations.LengthFieldIsLastTwoWords := by
  intro buf len b _ hb
  have h14 : b.val.drop 56 = _ := (drop_finalBlock hb).trans (bytes64_eq_bytes32_append _)
  have h15 : b.val.drop 60 = bytes32 ((bitlen len >>> 32).setWidth 32) := by
    rw [show 60 = 56 + 4 from rfl, ← List.drop_drop, h14]
    rfl
  rw [loadw_of_drop (i := 14) h14, loadw_of_drop (i := 15) (h15.trans (List.append_nil _).symm)]
  rw [BitVec.toNat_setWidth, toNat_highHalf, bitlen, BitVec.toNat_ofNat]
  exact ⟨rfl, rfl⟩

/-! ### The serialiser -/

theorem ser_eq_flatMap (h : Regs) : ser h = [h.h0, h.h1, h.h2, h.h3, h.h4].flatMap bytes32 := by
  simp [ser]

theorem ser_injective : Function.Injective ser := by
  rintro ⟨h0, h1, h2, h3, h4⟩ ⟨k0, k1, k2, k3, k4⟩ heq
  simpa only [ser, List.append_assoc, bytes32_append_inj, bytes32_injective.eq_iff, Regs.mk.injEq] using heq

theorem exists_ser_eq {bs : List Byte} (hbs : bs.length = 20) : ∃ h, ser h = bs := by
  obtain ⟨ws, hlen, rfl⟩ := exists_flatMap_bytes32 5 bs hbs
  match ws, hlen with
  | [w0, w1, w2, w3, w4], _ => exact ⟨⟨w0, w1, w2, w3, w4⟩, ser_eq_flatMap _⟩

/-- Settles O42: `SER` concatenates the bytes of five words, and words and groups of four bytes correspond one to one. -/
theorem serialiserLayoutAndBijection : Obligations.SerialiserLayoutAndBijection := by
  refine ⟨fun h i n w hn hw => ⟨byteOf w n, ?_, toNat_byteOf w n⟩, length_ser, fun bs hbs => ?_⟩
  · rw [ser_eq_flatMap, getElem?_flatMap_bytes32 _ _ hn, hw, Option.map_some]
  · obtain ⟨h, rfl⟩ := exists_ser_eq hbs
    exact ⟨h, rfl, fun h' heq => ser_injective heq⟩

/-! ### Running a command again -/

theorem rspReady_of_withContext {c : Nat} {s t : State} {k : Context → Outcome} (h : withContext c s k = .next t)
    (hk : ∀ x, k x = .next t → s.rspReady = true) : s.rspReady = true := by
  rcases withContext_eq_next.mp h with ⟨x, -, hx⟩ | ⟨-, hf⟩
  · exact hk x hx
  · exact (raiseFault_eq_next.mp hf).1

/-- A command that completes answers, so the host takes the response (R174). -/
theorem rspReady_of_exec {i : Instr} {s t : State} (h : exec i s = .next t) : s.rspReady = true := by
  cases i with
  | init c => exact rspReady_of_withContext h fun _ hk => (respond_eq_next.mp hk).1
  | absorb c n =>
    obtain ⟨p, hp, hk⟩ := andThen_eq_next.mp h
    obtain ⟨-, rfl⟩ := takePayload_eq_next.mp hp
    refine rspReady_of_withContext (s := s.setDin (s.din.drop n)) hk fun _ hr => ?_
    exact (respond_eq_next.mp hr).1
  | digest c =>
    refine rspReady_of_withContext h fun x hk => ?_
    obtain ⟨u, hu, hr⟩ := andThen_eq_next.mp hk
    obtain ⟨-, rfl⟩ := emitDout_eq_next.mp hu
    exact (respond_eq_next.mp hr).1
  | copy d src =>
    exact rspReady_of_withContext h fun _ hk => rspReady_of_withContext hk fun _ hk => (respond_eq_next.mp hk).1

/-- A `DIGEST` of a context of the file delivers its bytes, so the host takes them (R174). -/
theorem doutReady_of_exec_digest {c : Nat} {s t : State} (h : exec (.digest c) s = .next t) (hc : c < s.nctx) :
    s.doutReady = true := by
  rcases withContext_eq_next.mp h with ⟨x, -, hk⟩ | ⟨hc', -⟩
  · obtain ⟨u, hu, -⟩ := andThen_eq_next.mp hk
    exact (emitDout_eq_next.mp hu).1
  · exact absurd hc (Nat.not_lt.mpr hc')

/-- Whether a command completes depends on its payload, what the host takes and the number of contexts alone (R173, R174). -/
theorem exec_of_exec {i : Instr} {s s' t : State} (h : exec i s = .next t) (hr : s'.rspReady = s.rspReady)
    (hd : s'.doutReady = s.doutReady) (hc : s'.nctx = s.nctx) (hn : payloadCount i ≤ s'.din.length) :
    exec i s' = .next (s'.after i) := by
  have hrsp : s'.rspReady = true := hr.trans (rspReady_of_exec h)
  by_cases hbad : ∃ c, i = .digest c ∧ s'.nctx ≤ c
  · obtain ⟨c, rfl, hbad⟩ := hbad
    obtain ⟨t', ht'⟩ := exists_respond (.faulted .badContext) hrsp
    have hex : exec (.digest c) s' = .next t' := (withContext_of_none hbad).trans ht'
    rw [hex, eq_after_of_exec hex]
  · refine exec_of_supplied hrsp (fun c hi => ?_) hn
    subst hi
    have hlt : c < s'.nctx := Nat.lt_of_not_le fun hle => hbad ⟨c, rfl, hle⟩
    exact hd.trans (doutReady_of_exec_digest h (hc ▸ hlt))

theorem payloadCount_eq_zero {i : Instr} (hi : ∀ c n, i ≠ .absorb c n) : payloadCount i = 0 := by
  cases i with
  | absorb c n => exact absurd rfl (hi c n)
  | _ => rfl

/-- R47: a command that takes no payload has the same effect again. -/
theorem State.effectOf_after_self {s : State} {i : Instr} (hi : ∀ c n, i ≠ .absorb c n) :
    (s.after i).effectOf i = s.effectOf i := by
  by_cases hbad : ∃ c ∈ namedContexts i, s.nctx ≤ c
  · obtain ⟨c, hc, hle⟩ := hbad
    simp [State.after_of_badContext hc hle, State.effectOf, payloadCount_eq_zero hi]
  · have hlegal : ∀ c ∈ namedContexts i, c < s.nctx := fun c hc => Nat.lt_of_not_le fun hle => hbad ⟨c, hc, hle⟩
    cases i with
    | init c =>
      obtain ⟨x, hx⟩ := State.exists_ctx (hlegal c (by simp [namedContexts]))
      have hx' : (s.after (.init c)).ctxs[c]? = some Context.fresh := by
        rw [State.after_init hx]
        exact State.setCtx_same _ (State.lt_nctx hx)
      simp only [State.effectOf, effect, hx, hx']
    | absorb c n => exact absurd rfl (hi c n)
    | digest c => exact effect_congr _ fun k _ => State.getElem?_after_of_not_written (Option.some_ne_none k).symm
    | copy d src =>
      have hd : d < s.nctx := hlegal d (by simp [namedContexts])
      obtain ⟨x, hx⟩ := State.exists_ctx hd
      obtain ⟨y, hy⟩ := State.exists_ctx (hlegal src (by simp [namedContexts]))
      have hd' : (s.after (.copy d src)).ctxs[d]? = some y := by
        rw [State.after_copy hd hy]
        exact State.setCtx_same y hd
      have hsrc' : (s.after (.copy d src)).ctxs[src]? = some y := by
        by_cases hds : d = src
        · exact hds ▸ hd'
        · exact (State.getElem?_after_of_not_written (i := .copy d src) (mt Option.some.inj hds)).trans hy
      simp only [State.effectOf, effect, hx, hy, hd', hsrc']

theorem writeSlot_writeSlot (xs : List Context) (w : Option (Nat × Context)) :
    writeSlot (writeSlot xs w) w = writeSlot xs w := by
  cases w with
  | none => rfl
  | some p => exact List.set_set ..

/-- Settles O32: the second run has the effect of the first, and writing a slot twice is writing it once. -/
theorem initDigestCopyIdempotent : Obligations.InitDigestCopyIdempotent := by
  intro i s t hi h
  cases eq_after_of_exec h
  refine ⟨_, exec_of_exec h rfl rfl (State.nctx_after s i) (payloadCount_eq_zero hi ▸ Nat.zero_le _), ?_⟩
  rw [State.ctxs_after, State.effectOf_after_self hi, State.ctxs_after, writeSlot_writeSlot]

end Sys2Proof.Machine

/-! # Proofs of the family 30_encoding: decoder and encoder, the opcode map, assembled lines, responses, HASH -/

namespace Sys2Proof.Machine

/-! ### The fields that spell a command -/

theorem decode_eq_init_iff {w : Word} {c : Nat} :
    decode w = .ok (.init c) ↔ opcOf w = 1 ∧ ctxOf w = c ∧ argOf w = 0 := by
  constructor
  · intro h
    rcases decode_ok_cases h with ⟨ho, ha, hi⟩ | ⟨-, hi⟩ | ⟨-, -, hi⟩ | ⟨-, -, hi⟩ <;> cases hi
    exact ⟨ho, rfl, ha⟩
  · rintro ⟨ho, rfl, ha⟩
    simp [decode, ho, ha]

theorem decode_eq_absorb_iff {w : Word} {c n : Nat} :
    decode w = .ok (.absorb c n) ↔ opcOf w = 2 ∧ ctxOf w = c ∧ argOf w = n := by
  constructor
  · intro h
    rcases decode_ok_cases h with ⟨-, -, hi⟩ | ⟨ho, hi⟩ | ⟨-, -, hi⟩ | ⟨-, -, hi⟩ <;> cases hi
    exact ⟨ho, rfl, rfl⟩
  · rintro ⟨ho, rfl, rfl⟩
    simp [decode, ho]

theorem decode_eq_digest_iff {w : Word} {c : Nat} :
    decode w = .ok (.digest c) ↔ opcOf w = 3 ∧ ctxOf w = c ∧ argOf w = 0 := by
  constructor
  · intro h
    rcases decode_ok_cases h with ⟨-, -, hi⟩ | ⟨-, hi⟩ | ⟨ho, ha, hi⟩ | ⟨-, -, hi⟩ <;> cases hi
    exact ⟨ho, rfl, ha⟩
  · rintro ⟨ho, rfl, ha⟩
    simp [decode, ho, ha]

theorem decode_eq_copy_iff {w : Word} {d src : Nat} :
    decode w = .ok (.copy d src) ↔ opcOf w = 4 ∧ ctxOf w = d ∧ srcOf w = src ∧ lowOf w = 0 := by
  constructor
  · intro h
    rcases decode_ok_cases h with ⟨-, -, hi⟩ | ⟨-, hi⟩ | ⟨-, -, hi⟩ | ⟨ho, hl, hi⟩ <;> cases hi
    exact ⟨ho, rfl, rfl, hl⟩
  · rintro ⟨ho, rfl, rfl, hl⟩
    simp [decode, ho, hl]

/-! ### Decoding and encoding -/

/-- Settles O2: the encoder puts opcode and operands into their fields, and these fields spell the command. -/
theorem decodeOfEncodeIsIdentity : Obligations.DecodeOfEncodeIsIdentity := by
  intro i h
  cases i with
  | init c => exact decode_eq_init_iff.mpr (Laws.EncodedFields.init c h)
  | absorb c n => exact decode_eq_absorb_iff.mpr (Laws.EncodedFields.absorb c n h)
  | digest c => exact decode_eq_digest_iff.mpr (Laws.EncodedFields.digest c h)
  | copy d src => exact decode_eq_copy_iff.mpr (Laws.EncodedFields.copy d src h)

theorem argOf_eq_zero_iff (w : Word) : argOf w = 0 ↔ srcOf w = 0 ∧ lowOf w = 0 := by
  rw [argOf_eq_src_low]
  omega

/-- What a word spells is well formed: a field holds no more than fits it. -/
theorem wf_of_decode {w : Word} {i : Instr} (h : decode w = .ok i) : i.wf = true := by
  have hctx := ctxOf_lt w
  have hsrc := srcOf_lt w
  have harg := argOf_lt w
  rcases decode_ok_cases h with ⟨-, -, rfl⟩ | ⟨-, rfl⟩ | ⟨-, -, rfl⟩ | ⟨-, -, rfl⟩ <;>
    simp [Instr.wf, indexFits, countFits, hctx, hsrc, harg]

theorem ofNat_fields (w : Word) : BitVec.ofNat 32 (opcOf w * 2 ^ 24 + ctxOf w * 2 ^ 16 + argOf w) = w := by
  rw [← toNat_eq_fields, BitVec.ofNat_toNat, BitVec.setWidth_eq]

/-- The encoder writes back the fields the decoder read; the fields that are no operands are zero. -/
theorem encode_of_decode {w : Word} {i : Instr} (h : decode w = .ok i) : encode i = w := by
  have hw := ofNat_fields w
  rcases decode_ok_cases h with ⟨ho, ha, rfl⟩ | ⟨ho, rfl⟩ | ⟨ho, ha, rfl⟩ | ⟨ho, hl, rfl⟩
  · rw [ho, ha] at hw
    exact hw
  · rw [ho] at hw
    exact hw
  · rw [ho, ha] at hw
    exact hw
  · rw [ho, argOf_eq_src_low, hl, ← Nat.add_assoc] at hw
    exact hw

/-- Settles O3: the word is the encoding of its fields, and each field holds no more than fits it. -/
theorem encodeOfDecodeIsIdentity : Obligations.EncodeOfDecodeIsIdentity := fun _ _ h =>
  ⟨encode_of_decode h, wf_of_decode h⟩

/-! ### Words that spell no command -/

theorem decode_eq_illegalOpcode_iff {w : Word} :
    decode w = .error .illegalOpcode ↔ opcOf w = 0 ∨ 5 ≤ opcOf w := by
  constructor
  · intro h
    rcases decode_error_cases h with ⟨-, h1, h2, h3, h4⟩ | ⟨hc, -⟩
    · omega
    · cases hc
  · intro h
    have h1 : opcOf w ≠ 1 := by omega
    have h2 : opcOf w ≠ 2 := by omega
    have h3 : opcOf w ≠ 3 := by omega
    have h4 : opcOf w ≠ 4 := by omega
    simp [decode, h1, h2, h3, h4]

theorem decode_eq_reservedField_iff {w : Word} :
    decode w = .error .reservedField ↔
      ((opcOf w = 1 ∨ opcOf w = 3) ∧ argOf w ≠ 0) ∨ (opcOf w = 4 ∧ lowOf w ≠ 0) := by
  constructor
  · intro h
    rcases decode_error_cases h with ⟨hc, -⟩ | ⟨-, ⟨ho, ha⟩ | ⟨ho, ha⟩ | ⟨ho, hl⟩⟩
    · cases hc
    · exact .inl ⟨.inl ho, ha⟩
    · exact .inl ⟨.inr ho, ha⟩
    · exact .inr ⟨ho, hl⟩
  · rintro (⟨ho | ho, ha⟩ | ⟨ho, hl⟩)
    · simp [decode, ho, ha]
    · simp [decode, ho, ha]
    · simp [decode, ho, hl]

/-- `BAD_CONTEXT` is no cause of the decoder (R65). -/
theorem decode_ne_badContext (w : Word) : decode w ≠ .error .badContext := by
  intro h
  rcases decode_error_cases h with ⟨hc, -⟩ | ⟨hc, -⟩ <;> cases hc

/-! ### The verdict from the decoded word -/

/-- R73's answer to a command with an index of `NCTX` or more: only an `ABSORB` takes bytes (R154). -/
def badContextVerdict : Instr → Verdict
  | .absorb _ n => .faultedAbsorb .badContext n
  | _ => .faulted .badContext

theorem verdict_of_error {w : Word} {cause : Cause} (nctx : Nat) (h : decode w = .error cause) :
    verdict nctx w = .faulted cause := by
  rcases decode_error_cases h with ⟨rfl, h1, h2, h3, h4⟩ | ⟨rfl, ⟨ho, ha⟩ | ⟨ho, ha⟩ | ⟨ho, hl⟩⟩
  · simp [verdict, h1, h2, h3, h4]
  · simp [verdict, ho, ha]
  · simp [verdict, ho, ha]
  · simp [verdict, ho, hl]

theorem verdict_of_ok {w : Word} {i : Instr} (nctx : Nat) (h : decode w = .ok i) :
    verdict nctx w = if legalIn nctx i then .command i else badContextVerdict i := by
  rcases decode_ok_cases h with ⟨ho, ha, rfl⟩ | ⟨ho, rfl⟩ | ⟨ho, ha, rfl⟩ | ⟨ho, hl, rfl⟩
  · by_cases hc : nctx ≤ ctxOf w <;> simp [verdict, legalIn, namedContexts, badContextVerdict, ho, ha, hc]
  · by_cases hc : nctx ≤ ctxOf w <;> simp [verdict, legalIn, namedContexts, badContextVerdict, ho, hc]
  · by_cases hc : nctx ≤ ctxOf w <;> simp [verdict, legalIn, namedContexts, badContextVerdict, ho, ha, hc]
  · by_cases hc : nctx ≤ ctxOf w <;> by_cases hs : nctx ≤ srcOf w <;>
      simp [verdict, legalIn, namedContexts, badContextVerdict, ho, hl, hc, hs]

theorem verdict_of_legal {nctx : Nat} {w : Word} {i : Instr} (h : decode w = .ok i) (hi : legalIn nctx i = true) :
    verdict nctx w = .command i := by
  rw [verdict_of_ok nctx h, if_pos hi]

theorem verdict_of_not_legal {nctx : Nat} {w : Word} {i : Instr} (h : decode w = .ok i) (hi : legalIn nctx i = false) :
    verdict nctx w = badContextVerdict i := by
  rw [verdict_of_ok nctx h, hi]
  rfl

/-- The cases of R73's decoder: a cause of the decoder, a command with legal operands, a command with a bad context. -/
theorem verdict_cases (nctx : Nat) (w : Word) :
    (∃ cause, decode w = .error cause ∧ verdict nctx w = .faulted cause) ∨
    (∃ i, decode w = .ok i ∧ legalIn nctx i = true ∧ verdict nctx w = .command i) ∨
    ∃ i, decode w = .ok i ∧ legalIn nctx i = false ∧ verdict nctx w = badContextVerdict i := by
  cases hd : decode w with
  | error cause => exact .inl ⟨cause, rfl, verdict_of_error nctx hd⟩
  | ok i =>
    cases hi : legalIn nctx i with
    | true => exact .inr (.inl ⟨i, rfl, hi, verdict_of_legal hd hi⟩)
    | false => exact .inr (.inr ⟨i, rfl, hi, verdict_of_not_legal hd hi⟩)

/-- Both forms of a `BAD_CONTEXT` answer. -/
theorem badContextVerdict_cases (i : Instr) :
    badContextVerdict i = .faulted .badContext ∨ ∃ n, badContextVerdict i = .faultedAbsorb .badContext n := by
  cases i with
  | absorb c n => exact .inr ⟨n, rfl⟩
  | _ => exact .inl rfl

/-! ### Masks (R65) -/

theorem bits_and (w m : Word) (hi lo : Nat) : bits (w &&& m) hi lo = bits w hi lo &&& bits m hi lo := by
  simp only [bits, BitVec.toNat_and, Nat.and_div_two_pow, Nat.and_mod_two_pow]

/-- A word is determined by its four bytes (R61, R64). -/
theorem word_eq_iff_fields {w w' : Word} :
    w = w' ↔ opcOf w = opcOf w' ∧ ctxOf w = ctxOf w' ∧ srcOf w = srcOf w' ∧ lowOf w = lowOf w' := by
  constructor
  · rintro rfl
    exact ⟨rfl, rfl, rfl, rfl⟩
  · rintro ⟨ho, hc, hs, hl⟩
    rw [← ofNat_fields w, ← ofNat_fields w', argOf_eq_src_low, argOf_eq_src_low, ho, hc, hs, hl]

/-- Masking and comparing goes byte by byte. -/
theorem and_eq_iff_fields {w m p : Word} :
    w &&& m = p ↔ opcOf w &&& opcOf m = opcOf p ∧ ctxOf w &&& ctxOf m = ctxOf p ∧ srcOf w &&& srcOf m = srcOf p ∧
      lowOf w &&& lowOf m = lowOf p := by
  simp only [word_eq_iff_fields, opcOf, ctxOf, srcOf, lowOf, bits_and]

/-- The mask byte `FF` keeps a field. -/
theorem and_255_of_lt {n : Nat} (h : n < 256) : n &&& 255 = n := Nat.and_two_pow_sub_one_of_lt_two_pow (n := 8) h

theorem opcOf_lt (w : Word) : opcOf w < 256 := Nat.mod_lt _ (by decide)

section
variable {w p : Word} (hc : ctxOf p = 0) (hs : srcOf p = 0) (hl : lowOf p = 0)
include hc hs hl

/-- The mask of `ABSORB`'s row compares the opcode. -/
theorem and_mask_opc_iff : w &&& 0xFF000000#32 = p ↔ opcOf w = opcOf p := by
  have hm : opcOf 0xFF000000#32 = 255 ∧ ctxOf 0xFF000000#32 = 0 ∧ srcOf 0xFF000000#32 = 0 ∧ lowOf 0xFF000000#32 = 0 := by
    decide
  simp [and_eq_iff_fields, hm, hc, hs, hl, and_255_of_lt, opcOf_lt]

/-- The mask of `COPY`'s row compares the opcode and the low byte. -/
theorem and_mask_opc_low_iff : w &&& 0xFF0000FF#32 = p ↔ opcOf w = opcOf p ∧ lowOf w = 0 := by
  have hm : opcOf 0xFF0000FF#32 = 255 ∧ ctxOf 0xFF0000FF#32 = 0 ∧ srcOf 0xFF0000FF#32 = 0 ∧ lowOf 0xFF0000FF#32 = 255 := by
    decide
  simp [and_eq_iff_fields, hm, hc, hs, hl, and_255_of_lt, opcOf_lt, lowOf_lt]

/-- The mask of the rows of `INIT` and `DIGEST` compares the opcode and `ARG`. -/
theorem and_mask_opc_arg_iff : w &&& 0xFF00FFFF#32 = p ↔ opcOf w = opcOf p ∧ argOf w = 0 := by
  have hm : opcOf 0xFF00FFFF#32 = 255 ∧ ctxOf 0xFF00FFFF#32 = 0 ∧ srcOf 0xFF00FFFF#32 = 255 ∧
      lowOf 0xFF00FFFF#32 = 255 := by decide
  simp [and_eq_iff_fields, argOf_eq_zero_iff, hm, hc, hs, hl, and_255_of_lt, opcOf_lt, srcOf_lt, lowOf_lt]

end

/-! ### The opcode map (R65) -/

theorem spells_init_iff (w : Word) : w &&& 0xFF00FFFF#32 = 0x01000000#32 ↔ ∃ c, decode w = .ok (.init c) := by
  have hp : opcOf 0x01000000#32 = 1 := by decide
  simp [and_mask_opc_arg_iff (p := 0x01000000#32) (by decide) (by decide) (by decide), hp, decode_eq_init_iff]

theorem spells_absorb_iff (w : Word) : w &&& 0xFF000000#32 = 0x02000000#32 ↔ ∃ c n, decode w = .ok (.absorb c n) := by
  have hp : opcOf 0x02000000#32 = 2 := by decide
  simp [and_mask_opc_iff (p := 0x02000000#32) (by decide) (by decide) (by decide), hp, decode_eq_absorb_iff]

theorem spells_digest_iff (w : Word) : w &&& 0xFF00FFFF#32 = 0x03000000#32 ↔ ∃ c, decode w = .ok (.digest c) := by
  have hp : opcOf 0x03000000#32 = 3 := by decide
  simp [and_mask_opc_arg_iff (p := 0x03000000#32) (by decide) (by decide) (by decide), hp, decode_eq_digest_iff]

theorem spells_copy_iff (w : Word) : w &&& 0xFF0000FF#32 = 0x04000000#32 ↔ ∃ d s, decode w = .ok (.copy d s) := by
  have hp : opcOf 0x04000000#32 = 4 := by decide
  simp [and_mask_opc_low_iff (p := 0x04000000#32) (by decide) (by decide) (by decide), hp, decode_eq_copy_iff]

/-- A word that matches the row of a command spells a command of that row. -/
theorem exists_decode_of_spells {i : Instr} {w : Word} (h : (rowOf i).spells w = true) :
    ∃ k, decode w = .ok k ∧ rowOf k = rowOf i := by
  have hm : w &&& (rowOf i).mask = (rowOf i).pattern := of_decide_eq_true h
  cases i with
  | init c =>
    obtain ⟨c', hd⟩ := (spells_init_iff w).mp hm
    exact ⟨_, hd, rfl⟩
  | absorb c n =>
    obtain ⟨c', n', hd⟩ := (spells_absorb_iff w).mp hm
    exact ⟨_, hd, rfl⟩
  | digest c =>
    obtain ⟨c', hd⟩ := (spells_digest_iff w).mp hm
    exact ⟨_, hd, rfl⟩
  | copy d s =>
    obtain ⟨d', s', hd⟩ := (spells_copy_iff w).mp hm
    exact ⟨_, hd, rfl⟩

/-- Settles O4: the masks pick out the fields that fix the command, and a word decodes to no two commands. -/
theorem opcodeMapRows : Obligations.OpcodeMapRows := by
  intro w
  refine ⟨⟨spells_init_iff w, spells_absorb_iff w, spells_digest_iff w, spells_copy_iff w⟩, fun i j hi hj => ?_,
    decode_eq_illegalOpcode_iff.symm, fun nctx i hd hi => ?_⟩
  · obtain ⟨k, hk, hki⟩ := exists_decode_of_spells hi
    obtain ⟨k', hk', hkj⟩ := exists_decode_of_spells hj
    cases hk.symm.trans hk'
    exact hki.symm.trans hkj
  · rw [verdict_of_not_legal hd hi]
    exact badContextVerdict_cases i

/-! ### Illegal words (R68) -/

/-- A cause of the decoder is the cause of the verdict, and no other one is but `BAD_CONTEXT`. -/
theorem verdict_eq_faulted_iff {nctx : Nat} {w : Word} {cause : Cause} (hcause : cause ≠ .badContext) :
    verdict nctx w = .faulted cause ↔ decode w = .error cause := by
  constructor
  · intro hv
    rcases verdict_cases nctx w with ⟨c, hd, hv'⟩ | ⟨i, -, -, hv'⟩ | ⟨i, -, -, hv'⟩
    · cases hv.symm.trans hv'
      exact hd
    · cases hv.symm.trans hv'
    · rcases badContextVerdict_cases i with hb | ⟨n, hb⟩
      · cases hv.symm.trans (hv'.trans hb)
        exact absurd rfl hcause
      · cases hv.symm.trans (hv'.trans hb)
  · exact verdict_of_error nctx

theorem verdict_badContext_iff {nctx : Nat} {w : Word} :
    (verdict nctx w = .faulted .badContext ∨ ∃ n, verdict nctx w = .faultedAbsorb .badContext n) ↔
      ∃ i, decode w = .ok i ∧ legalIn nctx i = false := by
  constructor
  · intro hv
    rcases verdict_cases nctx w with ⟨c, hd, hv'⟩ | ⟨i, -, -, hv'⟩ | ⟨i, hd, hi, -⟩
    · rw [hv'] at hv
      rcases hv with hc | ⟨n, hc⟩ <;> cases hc
      exact absurd hd (decode_ne_badContext w)
    · rw [hv'] at hv
      rcases hv with hc | ⟨n, hc⟩ <;> cases hc
    · exact ⟨i, hd, hi⟩
  · rintro ⟨i, hd, hi⟩
    rw [verdict_of_not_legal hd hi]
    exact badContextVerdict_cases i

/-- A word spells a command unless its opcode is of no row or a reserved field of its row is set. -/
theorem exists_decode_iff {w : Word} :
    (∃ i, decode w = .ok i) ↔
      (1 ≤ opcOf w ∧ opcOf w ≤ 4) ∧ ¬ ((opcOf w = 1 ∨ opcOf w = 3) ∧ argOf w ≠ 0) ∧ ¬ (opcOf w = 4 ∧ lowOf w ≠ 0) := by
  have hopc : (1 ≤ opcOf w ∧ opcOf w ≤ 4) ↔ decode w ≠ .error .illegalOpcode := by
    rw [Ne, decode_eq_illegalOpcode_iff]
    omega
  rw [hopc, ← not_or, ← decode_eq_reservedField_iff]
  cases hd : decode w with
  | ok i => simp
  | error cause =>
    cases cause with
    | badContext => exact absurd hd (decode_ne_badContext w)
    | _ => simp

/-- The index operands are `CTX` and, for `COPY`, `SRC`. -/
theorem legalIn_eq_false_iff {nctx : Nat} {w : Word} {i : Instr} (h : decode w = .ok i) :
    legalIn nctx i = false ↔ nctx ≤ ctxOf w ∨ (opcOf w = 4 ∧ nctx ≤ srcOf w) := by
  rcases decode_ok_cases h with ⟨ho, -, rfl⟩ | ⟨ho, rfl⟩ | ⟨ho, -, rfl⟩ | ⟨ho, -, rfl⟩ <;>
    simp [legalIn, namedContexts, ho, -Bool.and_eq_false_imp, Bool.and_eq_false_iff]

theorem exists_decode_not_legal_iff {nctx : Nat} {w : Word} :
    (∃ i, decode w = .ok i ∧ legalIn nctx i = false) ↔
      (∃ i, decode w = .ok i) ∧ (nctx ≤ ctxOf w ∨ (opcOf w = 4 ∧ nctx ≤ srcOf w)) := by
  rw [← exists_and_right]
  exact exists_congr fun _ => and_congr_right legalIn_eq_false_iff

/-- Settles O5: the verdict's causes are the decoder's, and `BAD_CONTEXT` is left for the words that spell a command. -/
theorem illegalWordsAndCauses : Obligations.IllegalWordsAndCauses := by
  have hillegal (nctx : Nat) (w : Word) : verdict nctx w = .faulted .illegalOpcode ↔ opcOf w = 0 ∨ 5 ≤ opcOf w :=
    (verdict_eq_faulted_iff (by decide)).trans decode_eq_illegalOpcode_iff
  refine ⟨fun nctx w => ⟨hillegal nctx w, (verdict_eq_faulted_iff (by decide)).trans decode_eq_reservedField_iff,
    ?_, ?_⟩, fun nctx => ⟨(hillegal nctx _).mpr (by decide), (hillegal nctx _).mpr (by decide)⟩⟩
  · rw [verdict_badContext_iff, exists_decode_not_legal_iff, exists_decode_iff]
    simp only [and_assoc]
  · rcases verdict_cases nctx w with ⟨cause, -, hv⟩ | ⟨i, hd, hi, hv⟩ | ⟨i, -, -, hv⟩
    · exact .inr (.inl ⟨cause, hv⟩)
    · exact .inl ⟨i, hv, hd, hi⟩
    · rw [hv]
      exact .inr ((badContextVerdict_cases i).imp_left fun h => ⟨_, h⟩)

/-- Settles O1: each word is read field by field. -/
theorem spelledWordsDecode : Obligations.SpelledWordsDecode := by
  unfold Obligations.SpelledWordsDecode
  decide

/-! ### Absorbing in pieces (R72, R115) -/

theorem lenAfter_lenAfter (len : DWord) (n k : Nat) : lenAfter (lenAfter len n) k = lenAfter len (n + k) := by
  apply BitVec.eq_of_toNat_eq
  simp only [lenAfter, BitVec.toNat_ofNat]
  omega

/-- `OVF` once the first sum has reached 2^61; below it `LEN` is that sum. -/
theorem ovfAfter_ovfAfter (len : DWord) (ovf : Bool) (n k : Nat) :
    ovfAfter (lenAfter len n) (ovfAfter len ovf n) k = ovfAfter len ovf (n + k) := by
  simp only [ovfAfter, lenAfter, BitVec.toNat_ofNat, Bool.or_assoc, ← Bool.decide_or]
  congr 2
  apply propext
  omega

theorem Context.absorb_append (x : Context) (a b : List Byte) : x.absorb (a ++ b) = (x.absorb a).absorb b := by
  have hregs : (x.absorb (a ++ b)).regs = ((x.absorb a).absorb b).regs := by
    simp only [Context.absorb_regs, Context.absorb_buf, ← List.append_assoc, foldBlocks_append x.regs (x.buf ++ a)]
  have hbuf : (x.absorb (a ++ b)).buf = ((x.absorb a).absorb b).buf := by
    simp only [Context.absorb_buf, ← List.append_assoc, tailOf_append (x.buf ++ a)]
  have hlen : (x.absorb (a ++ b)).len = ((x.absorb a).absorb b).len := by
    simp only [Context.absorb_len, lenAfter_lenAfter, List.length_append]
  have hovf : (x.absorb (a ++ b)).ovf = ((x.absorb a).absorb b).ovf := by
    simp only [Context.absorb_ovf, Context.absorb_len, ovfAfter_ovfAfter, List.length_append]
  exact Context.mk.injEq .. |>.mpr ⟨hregs, hbuf, hlen, hovf⟩

/-! ### The pieces of a payload -/

theorem flatten_piecesUpTo (k : Nat) (data : List Byte) : (piecesUpTo k data).flatten = data := by
  fun_induction piecesUpTo k data with
  | case1 data => exact List.flatten_singleton
  | case2 data k h => exact List.flatten_singleton
  | case3 data k h ih => rw [List.flatten_cons, ih, List.take_append_drop]

theorem piecesUpTo_ne_nil (k : Nat) (data : List Byte) : piecesUpTo k data ≠ [] := by
  fun_cases piecesUpTo k data <;> exact List.cons_ne_nil _ _

/-- `k` cuts suffice for `k + 1` times the greatest piece. -/
theorem length_le_of_mem_piecesUpTo {k : Nat} {data p : List Byte} (hk : data.length ≤ 65535 * (k + 1))
    (hp : p ∈ piecesUpTo k data) : p.length ≤ 65535 := by
  fun_induction piecesUpTo k data with
  | case1 data => exact List.mem_singleton.mp hp ▸ hk
  | case2 data k h => exact List.mem_singleton.mp hp ▸ h
  | case3 data k h ih =>
    rcases List.mem_cons.mp hp with rfl | hp
    · exact List.length_take_le ..
    · exact ih (by rw [List.length_drop]; omega) hp

/-- A cut leaves something on both sides. -/
theorem length_pos_of_mem_piecesUpTo {k : Nat} {data p : List Byte} (hdata : 1 ≤ data.length)
    (hp : p ∈ piecesUpTo k data) : 1 ≤ p.length := by
  fun_induction piecesUpTo k data with
  | case1 data => exact List.mem_singleton.mp hp ▸ hdata
  | case2 data k h => exact List.mem_singleton.mp hp ▸ hdata
  | case3 data k h ih =>
    rcases List.mem_cons.mp hp with rfl | hp
    · rw [List.length_take]
      omega
    · exact ih (by rw [List.length_drop]; omega) hp

theorem foldl_absorb_piecesUpTo (k : Nat) (data : List Byte) (x : Context) :
    (piecesUpTo k data).foldl Context.absorb x = x.absorb data := by
  fun_induction piecesUpTo k data generalizing x with
  | case1 data => rfl
  | case2 data k h => rfl
  | case3 data k h ih => rw [List.foldl_cons, ih, ← Context.absorb_append, List.take_append_drop]

@[simp] theorem flatten_pieces (data : List Byte) : (pieces data).flatten = data := flatten_piecesUpTo _ data

theorem length_le_of_mem_pieces {data p : List Byte} (hp : p ∈ pieces data) : p.length ≤ 65535 :=
  length_le_of_mem_piecesUpTo (by omega) hp

theorem pieces_of_le {data : List Byte} (h : data.length ≤ 65535) : pieces data = [data] := by
  rw [pieces]
  cases data.length / 65535 with
  | zero => rfl
  | succ k => exact if_pos h

theorem foldl_absorb_pieces (data : List Byte) (x : Context) : (pieces data).foldl Context.absorb x = x.absorb data :=
  foldl_absorb_piecesUpTo _ data x

/-- Settles O7: each cut takes 65535 bytes off the front, and absorbing a front and then the rest is absorbing both. -/
theorem longAbsorbSplitsIntoPieces : Obligations.LongAbsorbSplitsIntoPieces := fun data =>
  ⟨flatten_pieces data,
    fun _ hp => ⟨length_le_of_mem_pieces hp, fun h => length_pos_of_mem_piecesUpTo (by omega) hp⟩,
    foldl_absorb_pieces data⟩

/-! ### Assembled lines (R71, R72) -/

theorem mem_absorbLine {c : Nat} {data : List Byte} {e : Instr × List Byte} :
    e ∈ absorbLine c data ↔ ∃ piece ∈ pieces data, (.absorb c piece.length, piece) = e :=
  List.mem_map

/-- The pieces fit `COUNT`, so only the index can be too large. -/
theorem wf_absorbLine_iff {c : Nat} {data : List Byte} : (∀ e ∈ absorbLine c data, e.1.wf = true) ↔ c < 256 := by
  have hwf {piece : List Byte} (hp : piece ∈ pieces data) : (Instr.absorb c piece.length).wf = true ↔ c < 256 := by
    have hlen := length_le_of_mem_pieces hp
    simp only [Instr.wf, indexFits, countFits, Bool.and_eq_true, decide_eq_true_eq]
    omega
  constructor
  · intro h
    obtain ⟨piece, hp⟩ := List.exists_mem_of_ne_nil _ (piecesUpTo_ne_nil _ data)
    exact (hwf hp).mp (h _ (mem_absorbLine.mpr ⟨piece, hp, rfl⟩))
  · intro hc e he
    obtain ⟨piece, hp, rfl⟩ := mem_absorbLine.mp he
    exact (hwf hp).mpr hc

/-- A line's commands are well formed when its indices fit. -/
theorem Line.wf_expand_iff (l : Line) : (∀ e ∈ l.expand, e.1.wf = true) ↔ ∀ c ∈ l.indices, c < 256 := by
  cases l with
  | absorb c p => simpa [Line.expand, Line.indices] using wf_absorbLine_iff
  | hash c p =>
    have habsorb := wf_absorbLine_iff (c := c) (data := p.bytes)
    simp only [Line.expand, Line.indices, List.forall_mem_append, List.forall_mem_cons, habsorb]
    simp [Instr.wf, indexFits]
  | _ => simp [Line.expand, Line.indices, Instr.wf, indexFits]

/-- A line's commands are those without payload and one `ABSORB` per piece. -/
theorem Line.mem_expand_cases {l : Line} {e : Instr × List Byte} (he : e ∈ l.expand) :
    (payloadCount e.1 = 0 ∧ e.2 = []) ∨
    ∃ (c : Nat) (data : List Byte), ∃ piece ∈ pieces data, e = (.absorb c piece.length, piece) := by
  have habsorb {c : Nat} {data : List Byte} (he : e ∈ absorbLine c data) :
      ∃ (c : Nat) (data : List Byte), ∃ piece ∈ pieces data, e = (.absorb c piece.length, piece) := by
    obtain ⟨piece, hp, rfl⟩ := mem_absorbLine.mp he
    exact ⟨c, data, piece, hp, rfl⟩
  cases l with
  | absorb c p => exact .inr (habsorb he)
  | hash c p =>
    simp only [Line.expand, List.cons_append, List.mem_cons, List.mem_append, List.not_mem_nil, or_false] at he
    rcases he with rfl | he | rfl
    · exact .inl ⟨rfl, rfl⟩
    · exact .inr (habsorb he)
    · exact .inl ⟨rfl, rfl⟩
  | _ =>
    cases List.mem_singleton.mp he
    exact .inl ⟨rfl, rfl⟩

/-- Each command takes the bytes it comes with. -/
theorem Line.payloadCount_of_mem_expand {l : Line} {e : Instr × List Byte} (he : e ∈ l.expand) :
    payloadCount e.1 = e.2.length := by
  rcases Line.mem_expand_cases he with ⟨hcount, hnil⟩ | ⟨c, data, piece, -, rfl⟩
  · rw [hcount, hnil, List.length_nil]
  · rfl

/-- Each command's payload fits `COUNT` (R63). -/
theorem Line.payloadCount_le_of_mem_expand {l : Line} {e : Instr × List Byte} (he : e ∈ l.expand) :
    payloadCount e.1 ≤ 65535 := by
  rcases Line.mem_expand_cases he with ⟨hcount, -⟩ | ⟨c, data, piece, hp, rfl⟩
  · omega
  · exact length_le_of_mem_pieces hp

theorem Line.assemble_eq_some_iff {l : Line} {ws : List (Word × List Byte)} :
    l.assemble = some ws ↔ (∀ e ∈ l.expand, e.1.wf = true) ∧ l.expand.map (fun e => (encode e.1, e.2)) = ws := by
  simp [Line.assemble]

/-- Settles O6: words decode back to the well-formed commands they encode, and `ABSORB` lines are cut into pieces. -/
theorem assembledLinesDecode : Obligations.AssembledLinesDecode := by
  refine ⟨fun l ws h => ?_, fun l => ?_, fun c d src => ⟨rfl, rfl, rfl, rfl, rfl⟩, fun c p => ⟨fun h => ?_, ?_, rfl⟩⟩
  · obtain ⟨hwf, rfl⟩ := Line.assemble_eq_some_iff.mp h
    refine ⟨?_, ?_, fun e he => Line.payloadCount_of_mem_expand he⟩
    · rw [List.map_map]
      exact List.map_congr_left fun e he => decodeOfEncodeIsIdentity e.1 (hwf e he)
    · rw [List.map_map]
      rfl
  · simp only [Line.assemble_eq_some_iff, exists_and_left, exists_eq', and_true, Line.wf_expand_iff]
  · rw [Line.expand, absorbLine, pieces_of_le h]
    rfl
  · obtain ⟨hflat, hbounds, -⟩ := longAbsorbSplitsIntoPieces p.bytes
    exact ⟨pieces p.bytes, rfl, hflat, hbounds⟩

/-! ### Payload bytes taken (R67) -/

theorem payloadCount_of_decode {w : Word} {i : Instr} (h : decode w = .ok i) :
    payloadCount i = if opcOf w = 2 then argOf w else 0 := by
  rcases decode_ok_cases h with ⟨ho, -, rfl⟩ | ⟨ho, rfl⟩ | ⟨ho, -, rfl⟩ | ⟨ho, -, rfl⟩ <;> simp [payloadCount, ho]

theorem opcOf_ne_two_of_error {w : Word} {cause : Cause} (h : decode w = .error cause) : opcOf w ≠ 2 := by
  rcases decode_error_cases h with ⟨-, -, h2, -, -⟩ | ⟨-, ⟨ho, -⟩ | ⟨ho, -⟩ | ⟨ho, -⟩⟩ <;> omega

/-- A step that completes with reset released ran the command the word at the head of `CMD` spells, or answered its fault. -/
theorem step_released_cases {s t : State} {w : Word} {ws : List Word} (hrst : s.rst = .released) (hcmd : s.cmd = w :: ws)
    (h : step s = .next t) :
    (∃ i, decode w = .ok i ∧ payloadCount i ≤ s.din.length ∧ t = (s.setCmd ws).after i) ∨
    ∃ cause, decode w = .error cause ∧ t = (s.setCmd ws).emit [.rsp (responseWord (.faulted cause))] := by
  rw [step_of_released hrst, acceptCommand_of_cons hcmd] at h
  rcases runWord_cases h with ⟨i, hd, hi⟩ | ⟨cause, hd, hf⟩
  · exact .inl ⟨i, hd, payload_le_of_exec (s := s.setCmd ws) hi, eq_after_of_exec hi⟩
  · exact .inr ⟨cause, hd, (raiseFault_eq_next.mp hf).2⟩

/-- Settles O13: only a word with `OPC` 2 spells a command with a payload, its `COUNT` bytes; a decoder fault takes none. -/
theorem payloadBytesTaken : Obligations.PayloadBytesTaken := by
  intro s t w ws hrst hcmd h
  rcases step_released_cases hrst hcmd h with ⟨i, hd, hlen, rfl⟩ | ⟨cause, hd, rfl⟩
  · rw [payloadCount_of_decode hd] at hlen
    rw [State.din_after, payloadCount_of_decode hd, State.din_setCmd]
    exact ⟨fun ho => by simpa [ho] using hlen, fun ho => by simp [ho]⟩
  · exact ⟨fun ho => absurd ho (opcOf_ne_two_of_error hd), fun _ => rfl⟩

/-! ### One response per command (R69, R70) -/

/-- The index in `CTX` (R61). -/
def ctxOperand : Instr → Nat
  | .init c => c
  | .absorb c _ => c
  | .digest c => c
  | .copy d _ => d

theorem ctxOperand_of_decode {w : Word} {i : Instr} (h : decode w = .ok i) : ctxOperand i = ctxOf w := by
  rcases decode_ok_cases h with ⟨-, -, rfl⟩ | ⟨-, rfl⟩ | ⟨-, -, rfl⟩ | ⟨-, -, rfl⟩ <;> rfl

theorem legalIn_eq_true_iff {nctx : Nat} {i : Instr} : legalIn nctx i = true ↔ ∀ c ∈ namedContexts i, c < nctx := by
  simp [legalIn]

/-- The beats of a legal command: the bytes of a `DIGEST`, then `OVF` of the context in `CTX` as the command leaves it. -/
theorem State.out_after_of_legal {s : State} {i : Instr} (h : legalIn s.nctx i = true) :
    ∃ (y : Context) (bs : List Byte), (s.after i).ctxs[ctxOperand i]? = some y ∧
      (s.after i).out = s.out ++ bs.map Beat.dout ++ [.rsp (responseWord (.done y.ovf))] ∧
      ((∃ c, i = .digest c) → bs.length = 20) ∧ ((¬ ∃ c, i = .digest c) → bs = []) := by
  have hlegal := legalIn_eq_true_iff.mp h
  cases i with
  | init c =>
    have hc : c < s.nctx := hlegal c (by simp [namedContexts])
    obtain ⟨x, hx⟩ := State.exists_ctx hc
    rw [State.after_init hx]
    exact ⟨Context.fresh, [], State.setCtx_same _ hc, by simp [responseWord_done, Context.fresh], by simp, fun _ => rfl⟩
  | absorb c n =>
    have hc : c < s.nctx := hlegal c (by simp [namedContexts])
    obtain ⟨x, hx⟩ := State.exists_ctx hc
    rw [State.after_absorb n hx]
    exact ⟨_, [], State.setCtx_same _ hc, by simp, by simp, fun _ => rfl⟩
  | digest c =>
    obtain ⟨x, hx⟩ := State.exists_ctx (hlegal c (by simp [namedContexts]))
    rw [State.after_digest hx]
    exact ⟨x, x.digest, hx, rfl, fun _ => length_digest x, fun hn => absurd ⟨c, rfl⟩ hn⟩
  | copy d src =>
    have hd : d < s.nctx := hlegal d (by simp [namedContexts])
    obtain ⟨y, hy⟩ := State.exists_ctx (hlegal src (by simp [namedContexts]))
    rw [State.after_copy hd hy]
    exact ⟨y, [], State.setCtx_same _ hd, by simp, by simp, fun _ => rfl⟩

/-- The beat of a command with an index of `NCTX` or more. -/
theorem State.out_after_of_not_legal {s : State} {i : Instr} (h : legalIn s.nctx i = false) :
    (s.after i).out = s.out ++ [.rsp (responseWord (.faulted .badContext))] := by
  rw [← Bool.not_eq_true, legalIn_eq_true_iff] at h
  push Not at h
  obtain ⟨c, hc, hle⟩ := h
  rw [State.after_of_badContext hc hle]
  rfl

/-- A step that completes answers the verdict of the word at the head of `CMD`. -/
theorem step_response_cases {s t : State} {w : Word} {ws : List Word} (hrst : s.rst = .released) (hcmd : s.cmd = w :: ws)
    (h : step s = .next t) :
    (∃ (i : Instr) (y : Context) (bs : List Byte), verdict s.nctx w = .command i ∧ t.ctxs[ctxOf w]? = some y ∧
      t.out = s.out ++ bs.map Beat.dout ++ [.rsp (responseWord (.done y.ovf))] ∧
      ((∃ c, i = .digest c) → bs.length = 20) ∧ ((¬ ∃ c, i = .digest c) → bs = [])) ∨
    ∃ cause, (verdict s.nctx w = .faulted cause ∨ ∃ n, verdict s.nctx w = .faultedAbsorb cause n) ∧
      t.out = s.out ++ [.rsp (responseWord (.faulted cause))] := by
  rcases step_released_cases hrst hcmd h with ⟨i, hd, -, rfl⟩ | ⟨cause, hd, rfl⟩
  · cases hi : legalIn s.nctx i with
    | true =>
      obtain ⟨y, bs, hy, hrest⟩ := State.out_after_of_legal (s := s.setCmd ws) hi
      exact .inl ⟨i, y, bs, verdict_of_legal hd hi, ctxOperand_of_decode hd ▸ hy, hrest⟩
    | false =>
      refine .inr ⟨.badContext, ?_, State.out_after_of_not_legal (s := s.setCmd ws) hi⟩
      rw [verdict_of_not_legal hd hi]
      exact badContextVerdict_cases i
  · exact .inr ⟨cause, .inl (verdict_of_error _ hd), rfl⟩

theorem toNat_responseWord_faulted (cause : Cause) : (responseWord (.faulted cause)).toNat = causeCode cause := by
  cases cause <;> rfl

theorem responseWord_cases (r : Response) :
    responseWord r = 0x000#32 ∨ responseWord r = 0x100#32 ∨ responseWord r = 1#32 ∨ responseWord r = 2#32 ∨
      responseWord r = 3#32 := by
  cases r with
  | done ovf => cases ovf <;> decide
  | faulted cause => cases cause <;> decide

/-- Settles O12: the verdict is a legal command or a fault, and each has its one response word. -/
theorem oneResponsePerCommand : Obligations.OneResponsePerCommand := by
  intro s t w ws hrst hcmd h
  rcases step_response_cases hrst hcmd h with ⟨i, y, bs, hv, hy, hout, hdigest, hother⟩ | ⟨cause, hv, hout⟩
  · refine ⟨bs, _, hout, responseWord_cases _, ?_, ?_, ?_, ?_⟩
    · exact fun _ _ => ⟨y, hy, responseWord_done y.ovf⟩
    · simp [hv]
    · simpa [hv] using hdigest
    · simpa [hv] using hother
  · refine ⟨[], _, by simpa using hout, responseWord_cases _, ?_, ?_, ?_, fun _ => rfl⟩
    · rcases hv with hv | ⟨n, hv⟩ <;> simp [hv]
    · intro cause' hv'
      have heq : cause = cause' := by
        rcases hv with hv | ⟨n, hv⟩ <;> simpa [hv] using hv'
      rw [toNat_responseWord_faulted, heq]
    · rcases hv with hv | ⟨n, hv⟩ <;> simp [hv]

/-! ### `HASH` (R72) -/

theorem State.setCtx_self {s : State} {c : Nat} {x : Context} (h : s.ctxs[c]? = some x) : s.setCtx c x = s := by
  obtain ⟨hc, rfl⟩ := List.getElem?_eq_some_iff.mp h
  rw [State.setCtx, List.set_getElem_self]

/-- A run of `ABSORB` commands, one per piece, on a context that holds a stream: the context absorbs the pieces in turn, and
each command responds 0. -/
theorem execAll_absorbs {c : Nat} {m rest : List Byte} {s : State} {x : Context} (ps : List (List Byte))
    (hr : s.rspReady = true) (hx : s.ctxs[c]? = some x) (h : x.Holds m) (hdin : s.din = ps.flatten ++ rest)
    (hm : m.length + ps.flatten.length < 2 ^ 61) :
    execAll (ps.map fun piece => .absorb c piece.length) s =
      .next (((s.setDin rest).setCtx c (ps.foldl Context.absorb x)).emit (List.replicate ps.length (.rsp 0#32))) := by
  induction ps generalizing m s x with
  | nil =>
    have hself : (s.setDin rest).setCtx c x = s := by
      rw [State.setCtx_self (s := s.setDin rest) hx, State.setDin, ← show s.din = rest from hdin]
    simp [hself, State.emit]
  | cons p ps ih =>
    rw [List.flatten_cons, List.append_assoc] at hdin
    rw [List.flatten_cons, List.length_append] at hm
    have hlen : p.length ≤ s.din.length := by simp [hdin]
    have htake : s.din.take p.length = p := by simp [hdin]
    have hdrop : s.din.drop p.length = ps.flatten ++ rest := by simp [hdin]
    have hx' : ((s.setDin (ps.flatten ++ rest)).setCtx c (x.absorb p)).ctxs[c]? = some (x.absorb p) :=
      State.setCtx_same _ (State.lt_nctx (s := s) hx)
    rw [List.map_cons, execAll_cons (exec_absorb_of_holds hr hx h hlen (by omega)), htake, hdrop]
    rw [ih (s := ((s.setDin (ps.flatten ++ rest)).setCtx c (x.absorb p)).emit [.rsp 0#32]) hr hx' (h.absorb p) rfl
      (by rw [List.length_append]; omega)]
    simp [State.setCtx, State.setDin, State.emit, List.replicate_succ]

/-- The state the commands of `HASH` leave: context `c` has absorbed the payload from fresh, and `DIN` is past it. -/
theorem execAll_hash {s : State} {c : Nat} {p : Payload} {rest : List Byte} (hhost : s.HostTakes) (hc : c < s.nctx)
    (hdin : s.din = p.bytes ++ rest) (hlen : p.bytes.length < 2 ^ 61) :
    execAll ((Line.hash c p).expand.map Prod.fst) s =
      .next (((s.setDin rest).setCtx c (Context.fresh.absorb p.bytes)).emit
        (List.replicate ((pieces p.bytes).length + 1) (.rsp 0#32) ++ (ripemd160 p.bytes).map Beat.dout ++ [.rsp 0#32])) := by
  obtain ⟨x, hx⟩ := State.exists_ctx hc
  have hprogram : (Line.hash c p).expand.map Prod.fst =
      .init c :: ((pieces p.bytes).map (fun piece => .absorb c piece.length) ++ [.digest c]) := by
    simp [Line.expand, absorbLine, Function.comp_def]
  have hinit : exec (.init c) s = .next ((s.setCtx c Context.fresh).emit [.rsp 0#32]) := by
    rw [exec_of_hostTakes hhost (Nat.zero_le _), State.after_init hx]
  have habsorbs : execAll ((pieces p.bytes).map fun piece => .absorb c piece.length)
        ((s.setCtx c Context.fresh).emit [.rsp 0#32]) =
      .next (((s.setDin rest).setCtx c (Context.fresh.absorb p.bytes)).emit
        (List.replicate ((pieces p.bytes).length + 1) (.rsp 0#32))) := by
    rw [execAll_absorbs (s := (s.setCtx c Context.fresh).emit [.rsp 0#32]) (rest := rest) (pieces p.bytes) hhost.1
      (State.setCtx_same _ hc) Context.fresh_holds (by rw [flatten_pieces]; exact hdin) (by simpa using hlen),
      foldl_absorb_pieces]
    simp [State.setCtx, State.setDin, State.emit, List.replicate_succ]
  have hdigest (bs : List Beat) : exec (.digest c) (((s.setDin rest).setCtx c (Context.fresh.absorb p.bytes)).emit bs) =
      .next ((((s.setDin rest).setCtx c (Context.fresh.absorb p.bytes)).emit bs).emit
        ((ripemd160 p.bytes).map Beat.dout ++ [.rsp 0#32])) :=
    exec_digest_of_holds hhost (State.setCtx_same (s := s.setDin rest) _ hc) (Context.fresh_holds.absorb _) hlen
  rw [hprogram, execAll_cons hinit, execAll_append habsorbs, execAll_cons (hdigest _)]
  simp [State.emit]

/-- Settles O50: the frame is read off the state the commands leave. -/
theorem hashDeliversRipemd160 : Obligations.HashDeliversRipemd160 := by
  intro s c p rest hhost hc hdin hlen
  refine ⟨fun e he => Line.payloadCount_le_of_mem_expand he, _, execAll_hash hhost hc hdin hlen, rfl, rfl, ?_, ?_⟩
  · exact fun k hk => State.setCtx_other (s := s.setDin rest) _ hk.symm
  · simp [Line.expand, absorbLine]

end Sys2Proof.Machine

/-! # Proofs of the family 40_compression: the two lines, the boolean functions, the tables -/

namespace Sys2Proof.Machine

/-! ### The two lines (R93) -/

/-- `roundPair` acts on each component by itself, so a run of interleaved rounds is a pair of runs (R90, R91). -/
theorem foldl_roundPair (x : Fin 16 → Word) (js : List (Fin 80)) (l r : Work) :
    js.foldl (roundPair x) (l, r) =
      (js.foldl (fun w j => roundL x j w) l, js.foldl (fun w j => roundR x j w) r) := by
  induction js generalizing l r with
  | nil => rfl
  | cons j js ih => exact ih (roundL x j l) (roundR x j r)

/-- Settles O37: the pair that `COMPRESS` combines is the pair of the two lines' own runs. -/
theorem linesAreIndependent : Obligations.LinesAreIndependent := by
  intro h b
  simp only [compress, foldl_roundPair]

/-! ### The bits of the boolean functions (R82) -/

section

variable (x y z : Word) {i : Nat}

@[simp] theorem getLsbD_f1 : (f1 x y z).getLsbD i = (x.getLsbD i ^^ y.getLsbD i ^^ z.getLsbD i) := by
  simp [f1]

theorem getLsbD_f2 (hi : i < 32) :
    (f2 x y z).getLsbD i = (x.getLsbD i && y.getLsbD i || !x.getLsbD i && z.getLsbD i) := by
  simp [f2, hi]

theorem getLsbD_f3 (hi : i < 32) : (f3 x y z).getLsbD i = ((x.getLsbD i || !y.getLsbD i) ^^ z.getLsbD i) := by
  simp [f3, hi]

theorem getLsbD_f4 (hi : i < 32) :
    (f4 x y z).getLsbD i = (x.getLsbD i && z.getLsbD i || y.getLsbD i && !z.getLsbD i) := by
  simp [f4, hi]

theorem getLsbD_f5 (hi : i < 32) : (f5 x y z).getLsbD i = (x.getLsbD i ^^ (y.getLsbD i || !z.getLsbD i)) := by
  simp [f5, hi]

end

/-- Settles O34: bit `i` of each function is one formula in the three bits `i`, and its table is checked over the eight triples
of bits. -/
theorem booleanFunctionsTruthTable : Obligations.BooleanFunctionsTruthTable := by
  intro x y z i hi
  rw [getLsbD_f1, getLsbD_f2 x y z hi, getLsbD_f3 x y z hi, getLsbD_f4 x y z hi, getLsbD_f5 x y z hi]
  generalize x.getLsbD i = p, y.getLsbD i = q, z.getLsbD i = r
  revert p q r
  decide

/-! ### The tables (R97) -/

/-- `rho` is the second row of `RL`; it takes each selection row to the row below it. -/
theorem selectionRows_follow_rho : ∀ (k : Fin 4) (i : Fin 16),
    (rowsRL.get k.succ).get i = (rowsRL.get 1).get ((rowsRL.get k.castSucc).get i) ∧
    (rowsRR.get k.succ).get i = (rowsRL.get 1).get ((rowsRR.get k.castSucc).get i) := by decide

theorem rowKL_floor_sqrt : ∀ k : Fin 4,
    (rowKL.get k.succ).toNat ^ 2 ≤ 2 ^ 60 * (#v[2, 3, 5, 7] : Vector Nat 4).get k ∧
    2 ^ 60 * (#v[2, 3, 5, 7] : Vector Nat 4).get k < ((rowKL.get k.succ).toNat + 1) ^ 2 := by decide

theorem rowKR_floor_cbrt : ∀ k : Fin 4,
    (rowKR.get k.castSucc).toNat ^ 3 ≤ 2 ^ 90 * (#v[2, 3, 5, 7] : Vector Nat 4).get k ∧
    2 ^ 90 * (#v[2, 3, 5, 7] : Vector Nat 4).get k < ((rowKR.get k.castSucc).toNat + 1) ^ 3 := by decide

/-- Sixteen rounds on is the same place of the next sub-round. -/
theorem subRound_of_add_sixteen {j j' : Fin 80} (h : j'.val = j.val + 16) :
    inSubRound j' = inSubRound j ∧ ∃ k : Fin 4, subRound j = k.castSucc ∧ subRound j' = k.succ := by
  refine ⟨Fin.ext (by simp [inSubRound, h]), ⟨j.val / 16, by omega⟩, rfl, Fin.ext ?_⟩
  simp only [subRound, Fin.val_succ]
  omega

/-- Settles O35: the first selection rows and the base shift table are read off round by round, the laws of `rho` and of the
roots row by row. -/
theorem tablesObeyStructuralLaws : Obligations.TablesObeyStructuralLaws := by
  refine ⟨by decide, fun j j' h => ?rho, by decide, fun j k => ⟨fun h => ?sqrt, fun h => ?cbrt⟩⟩
  case rho =>
    obtain ⟨hi, k, hj, hj'⟩ := subRound_of_add_sixteen h
    rw [selL, selR, selL, selR, hi, hj, hj']
    exact selectionRows_follow_rho k (inSubRound j)
  case sqrt =>
    rw [addL, show subRound j = k.succ from Fin.ext h]
    exact rowKL_floor_sqrt k
  case cbrt =>
    rw [addR, show subRound j = k.castSucc from Fin.ext h]
    exact rowKR_floor_cbrt k

end Sys2Proof.Machine

/-! # Proofs of the family 41_streaming: INIT, COPY and ABSORB, the byte-serial form, the refinement of streams -/

namespace Sys2Proof.Machine

/-! ### Refinement of streams -/

/-- Writing a context that holds `m` into slot `c` is replacing stream `c` by `m`. -/
theorem State.Tracks.setCtx {s : State} {σ : Nat → List Byte} (hs : s.Tracks σ) (c : Nat) {x : Context} {m : List Byte}
    (hx : x.Holds m) : (s.setCtx c x).Tracks (setStream σ c m) := by
  intro k y hy
  by_cases hk : k = c
  · subst hk
    have hlt : k < s.nctx := State.nctx_setCtx s k x ▸ State.lt_nctx hy
    cases (State.setCtx_same x hlt).symm.trans hy
    simpa [setStream] using hx
  · rw [State.setCtx_other x (Ne.symm hk)] at hy
    simpa [setStream, hk] using hs k y hy

/-- A legal command leaves the contexts at the streams S1's operation gives. -/
theorem State.Tracks.after {s : State} {σ : Nat → List Byte} {i : Instr} (hs : s.Tracks σ)
    (hi : legalIn s.nctx i = true) : (s.after i).Tracks (streamsAfter σ i (s.din.take (payloadCount i))) := by
  have hlegal := legalIn_eq_true_iff.mp hi
  cases i with
  | init c =>
    obtain ⟨x, hx⟩ := State.exists_ctx (hlegal c (by simp [namedContexts]))
    rw [State.after_init hx]
    exact hs.setCtx c Context.fresh_holds
  | absorb c n =>
    obtain ⟨x, hx⟩ := State.exists_ctx (hlegal c (by simp [namedContexts]))
    rw [State.after_absorb n hx]
    exact State.Tracks.setCtx (s := s.setDin (s.din.drop n)) hs c ((hs c x hx).absorb _)
  | digest c =>
    obtain ⟨x, hx⟩ := State.exists_ctx (hlegal c (by simp [namedContexts]))
    rw [State.after_digest hx]
    exact hs
  | copy d src =>
    obtain ⟨y, hy⟩ := State.exists_ctx (hlegal src (by simp [namedContexts]))
    rw [State.after_copy (hlegal d (by simp [namedContexts])) hy]
    exact hs.setCtx d (hs src y hy)

@[simp] theorem doutOf_append (as bs : List Beat) : doutOf (as ++ bs) = doutOf as ++ doutOf bs :=
  List.filterMap_append

@[simp] theorem doutOf_map_dout (bs : List Byte) : doutOf (bs.map Beat.dout) = bs := by
  simp [doutOf, List.filterMap_map]

@[simp] theorem doutOf_rsp (w : Word) : doutOf [.rsp w] = [] := rfl

/-- A `DIGEST` of a legal context delivers the context's digest bytes and no others. -/
theorem State.doutOf_after_digest {s : State} {c : Nat} {x : Context} (hx : s.ctxs[c]? = some x) :
    doutOf (s.after (.digest c)).out = doutOf s.out ++ x.digest := by
  simp [State.after_digest hx]

/-- Settles O47: what a command writes holds the stream S1's operation gives, and a context that holds a stream digests
to its RIPEMD160. -/
theorem execRefinesStreams : Obligations.ExecRefinesStreams := by
  intro s t σ i hs hi h
  cases eq_after_of_exec h
  refine ⟨hs.after hi, ?_⟩
  rintro c rfl -
  obtain ⟨x, hx⟩ := State.exists_ctx (legalIn_eq_true_iff.mp hi c (by simp [namedContexts]))
  rw [State.doutOf_after_digest hx, (hs c x hx).digest_eq]

/-! ### `INIT` and `COPY` -/

/-- A supplied command with an index of `NCTX` or more takes its payload, drops it, and responds 3 (R153, R154). -/
theorem exec_of_badContext {i : Instr} {s : State} {c : Nat} (hr : s.rspReady = true)
    (hd : ∀ c, i = .digest c → s.doutReady = true) (hn : payloadCount i ≤ s.din.length) (hc : c ∈ namedContexts i)
    (h : s.nctx ≤ c) : exec i s = .next ((s.setDin (s.din.drop (payloadCount i))).emit [.rsp 3#32]) := by
  rw [exec_of_supplied hr hd hn, State.after_of_badContext hc h]

/-- Settles O16: `INIT` writes the fresh context, and a bad index is answered with its cause. -/
theorem initMakesContextFresh : Obligations.InitMakesContextFresh := by
  intro s c hr
  refine ⟨fun hc => ?_, exec_of_badContext (i := .init c) hr (by simp) (Nat.zero_le _) (List.mem_singleton_self c)⟩
  obtain ⟨x, hx⟩ := State.exists_ctx hc
  rw [exec_of_supplied (i := .init c) hr (by simp) (Nat.zero_le _), State.after_init hx]
  rfl

/-- Settles O17: `COPY` writes the source's value, and either bad index is answered with its cause. -/
theorem copyCopiesWholeContext : Obligations.CopyCopiesWholeContext := by
  intro s d src hr
  have hbad {c : Nat} (hmem : c ∈ namedContexts (.copy d src)) :=
    exec_of_badContext (s := s) hr (by simp) (Nat.zero_le _) hmem
  refine ⟨fun y hd hy => ?_, fun hc => hc.elim (hbad (by simp [namedContexts])) (hbad (by simp [namedContexts]))⟩
  rw [exec_of_supplied hr (by simp) (Nat.zero_le _), State.after_copy hd hy, responseWord_done]
  rfl

/-- Settles O18: the slot is written with the value it holds. -/
theorem copyOntoItselfChangesNothing : Obligations.CopyOntoItselfChangesNothing := by
  intro s d x hr hx
  rw [exec_of_supplied (i := .copy d d) hr (by simp) (Nat.zero_le _), State.after_copy (State.lt_nctx hx) hx,
    State.setCtx_self hx, responseWord_done]
  rfl

/-! ### `ABSORB` -/

/-- `ABSORB` with its payload arrived, into a context of the file (R111). -/
theorem exec_absorb_of_some {s : State} {c n : Nat} {x : Context} (hr : s.rspReady = true) (hn : n ≤ s.din.length)
    (hx : s.ctxs[c]? = some x) :
    exec (.absorb c n) s = .next (((s.setDin (s.din.drop n)).setCtx c (x.absorb (s.din.take n))).emit
      [.rsp (responseWord (.done (x.absorb (s.din.take n)).ovf))]) := by
  rw [exec_of_supplied (i := .absorb c n) hr (by simp) hn, State.after_absorb n hx]

/-- `ABSORB` into an index of `NCTX` or more drops its payload (R154). -/
theorem exec_absorb_of_badContext {s : State} {c n : Nat} (hr : s.rspReady = true) (hn : n ≤ s.din.length)
    (hc : s.nctx ≤ c) : exec (.absorb c n) s = .next ((s.setDin (s.din.drop n)).emit [.rsp 3#32]) :=
  exec_of_badContext (i := .absorb c n) hr (by simp) hn (List.mem_singleton_self c) hc

/-- All four fields of a context after `ABSORB`, in the blocks and the tail of its bytes (R111, R113). -/
theorem Context.absorb_eq (x : Context) (d : List Byte) :
    x.absorb d = ⟨foldBlocks x.regs (x.buf ++ d), tailOf (x.buf ++ d), lenAfter x.len d.length,
      ovfAfter x.len x.ovf d.length⟩ := by
  simp only [Context.absorb, drain_eq]

/-- Settles O19: the loop of R111 is the fold over the blocks, and blocks and tail divide the length. -/
theorem absorbCompressesCompletedBlocks : Obligations.AbsorbCompressesCompletedBlocks := by
  intro s c n hr hn
  have hlen (x : Context) : (x.buf ++ s.din.take n).length = x.fill + n := by
    rw [List.length_append, List.length_take_of_le hn, Context.fill]
  refine ⟨fun x hx => ⟨?next, ?blocks, ?tail⟩, exec_absorb_of_badContext hr hn⟩
  case next =>
    rw [exec_absorb_of_some hr hn hx, responseWord_done, Context.absorb_eq, List.length_take_of_le hn]
    rfl
  case blocks => rw [length_blocksOf, hlen]
  case tail => exact (length_tailOf _).trans (by rw [hlen])

/-- Settles O20: the written context's `LEN` and `OVF` are R113's. -/
theorem absorbUpdatesLengthAndOverflow : Obligations.AbsorbUpdatesLengthAndOverflow := by
  intro s c n x hr hn hx
  refine ⟨_, x.absorb (s.din.take n), exec_absorb_of_some hr hn hx,
    State.setCtx_same (s := s.setDin (s.din.drop n)) _ (State.lt_nctx hx), ?_, ?_⟩
  · rw [Context.absorb_len, List.length_take_of_le hn, lenAfter, BitVec.toNat_ofNat]
  · rw [Context.absorb_ovf, List.length_take_of_le hn, ovfAfter, Bool.or_eq_true, decide_eq_true_iff]

/-! ### `ABSORB` of no bytes -/

/-- Absorbing nothing changes no field: the buffer holds no block, and `OVF` is set where `LEN` calls for it. -/
theorem Context.Holds.absorb_nil {x : Context} {m : List Byte} (h : x.Holds m) : x.absorb [] = x := by
  have hbuf : (x.buf ++ []).length < 64 := by
    rw [List.append_nil, h.buf]
    exact length_tailOf_lt m
  have hlen : lenAfter x.len 0 = x.len := by rw [h.len, lenAfter_ofNat, Nat.add_zero]
  have hovf : ovfAfter x.len x.ovf 0 = x.ovf := by
    rw [Bool.eq_iff_iff, h.len, ovfAfter_ofNat h.ovf, Nat.add_zero, h.ovf]
  rw [Context.absorb_eq, foldBlocks_of_lt hbuf, tailOf_of_lt hbuf, List.append_nil, List.length_nil, hlen, hovf]

/-- Settles O21: the slot is written with the value it holds. -/
theorem emptyAbsorbChangesNothing : Obligations.EmptyAbsorbChangesNothing := by
  intro s c hr
  refine ⟨fun x m hx h => ?_, exec_absorb_of_badContext hr (Nat.zero_le _)⟩
  rw [exec_absorb_of_some hr (Nat.zero_le _) hx, List.take_zero, h.absorb_nil, List.drop_zero,
    State.setCtx_self (s := s.setDin s.din) hx, responseWord_done]
  rfl

/-! ### The byte-serial form (R112) -/

/-- Byte by byte, the registers fold the completed blocks and the buffer holds the tail. -/
theorem foldl_absorbByte (data : List Byte) {h : Regs} {buf : Memory} (hbuf : buf.wf) :
    data.foldl absorbByte (h, buf) = (foldBlocks h (buf ++ data), tailOf (buf ++ data)) := by
  induction data generalizing h buf with
  | nil =>
    rw [List.foldl_nil, List.append_nil, foldBlocks_of_lt hbuf, tailOf_of_lt hbuf]
  | cons v data ih =>
    rw [List.foldl_cons, List.append_cons]
    rcases Nat.lt_or_ge buf.length 63 with hlt | hge
    · rw [absorbByte_of_lt v hlt, ih (buf := buf ++ [v]) (Memory.append_wf v hlt)]
    · have hfull : (buf ++ [v]).length = 64 := by
        rw [List.length_append, List.length_singleton]
        omega
      rw [absorbByte_of_full v hfull, ih (by decide), List.nil_append]
      rw [foldBlocks_block_append h ⟨buf ++ [v], hfull⟩, tailOf_block_append ⟨buf ++ [v], hfull⟩]

/-- Settles O23: both forms compute the fold over the blocks and the tail. -/
theorem byteSerialAbsorbEqualsBatch : Obligations.ByteSerialAbsorbEqualsBatch := by
  intro x data hbuf
  rw [Context.absorb_eq, Context.absorbSerial, foldl_absorbByte data hbuf]

/-! ### Two `ABSORB` commands (R115) -/

/-- Settles O24: the second command finds the context the first one left, and the two payloads are the joined one. -/
theorem splitAbsorbEqualsJoined : Obligations.SplitAbsorbEqualsJoined := by
  refine ⟨fun x a b => ?contexts, fun s c k n hr hc hlen => ?commands⟩
  case contexts =>
    rw [Context.absorb_append]
    exact ⟨rfl, rfl⟩
  case commands =>
    obtain ⟨x, hx⟩ := State.exists_ctx hc
    have hk : k ≤ s.din.length := by omega
    have hn : n ≤ (s.din.drop k).length := by
      rw [List.length_drop]
      omega
    have hx' := State.setCtx_same (s := s.setDin (s.din.drop k)) (x.absorb (s.din.take k)) hc
    refine ⟨_, _, _, exec_absorb_of_some hr hk hx, exec_absorb_of_some hr hn hx', exec_absorb_of_some hr hlen hx,
      ?_, ?_⟩
    · simp [List.take_add, Context.absorb_append]
    · simp

end Sys2Proof.Machine

/-! # Proofs of the family 42_digest: padding, the bit length, what `DIGEST` delivers and leaves alone -/

namespace Sys2Proof.Machine

/-! ### The bit length (R132) -/

theorem toNat_bitlen (len : DWord) : (bitlen len).toNat = 8 * len.toNat % 2 ^ 64 := BitVec.toNat_ofNat ..

theorem bitlen_eq_shiftLeft (len : DWord) : bitlen len = len <<< 3 := by
  apply BitVec.eq_of_toNat_eq
  rw [toNat_bitlen, BitVec.toNat_shiftLeft, Nat.shiftLeft_eq, Nat.mul_comm]

/-- Settles O41: 2^64 is a multiple of 8, so the remainder is one too. -/
theorem bitLengthField : Obligations.BitLengthField := by
  intro len
  have hval := toNat_bitlen len
  refine ⟨hval, bitlen_eq_shiftLeft len, fun hlen => ?_, ?_⟩ <;> omega

/-! ### The zero fill (R130) -/

/-- The zero fill is the least one: any other differs by a multiple of 64. -/
theorem zeroCount_le {p z : Nat} (h : (p + 1 + z) % 64 = 56) : zeroCount p ≤ z := by
  have hspec := zeroCount_spec p
  have hlt := zeroCount_lt p
  omega

theorem zeroCount_of_le {p : Nat} (h : p ≤ 63) : zeroCount p = if p ≤ 55 then 55 - p else 119 - p := by
  have hspec := zeroCount_spec p
  have hlt := zeroCount_lt p
  split <;> omega

/-- R131: the padded sequence of a short buffer is one block up to 55 bytes and two blocks above. -/
theorem length_pad_of_le {buf : List Byte} (len : DWord) (h : buf.length ≤ 63) :
    (pad buf len).length = if buf.length ≤ 55 then 64 else 128 := by
  rw [length_pad, zeroCount_of_le h]
  split <;> omega

theorem length_pad_cases {buf : List Byte} (len : DWord) (h : buf.length ≤ 63) :
    (pad buf len).length = 64 ∨ (pad buf len).length = 128 := by
  rw [length_pad_of_le len h]
  split <;> simp

/-- Settles O38: the zero fill of the model is R130's `z`. -/
theorem padFillsWholeBlocks : Obligations.PadFillsWholeBlocks := by
  intro buf len
  have hspec := zeroCount_spec buf.length
  have hlen := length_pad buf len
  refine ⟨zeroCount buf.length, rfl, hspec, fun _ => zeroCount_le, ?_, ?_,
    fun h => ⟨zeroCount_of_le h, length_pad_cases len h⟩⟩ <;> omega

/-! ### The layout of the padded sequence (R131) -/

theorem getElem?_bytes64 (v : DWord) {k : Nat} (hk : k < 8) : (bytes64 v)[k]? = some (byteOf v k) := by
  interval_cases k <;> rfl

theorem pad_eq_cons (buf : List Byte) (len : DWord) :
    pad buf len = buf ++ 0x80#8 :: (zeros (zeroCount buf.length) ++ bytes64 (bitlen len)) := by
  simp [pad]

section

variable {buf : List Byte} (len : DWord) {off : Nat}

theorem getElem?_pad_buf (h : off < buf.length) : (pad buf len)[off]? = buf[off]? := by
  rw [pad_eq_cons, List.getElem?_append_left h]

theorem getElem?_pad_marker : (pad buf len)[buf.length]? = some 0x80#8 := by
  simp [pad_eq_cons]

theorem getElem?_pad_zero (h : buf.length < off) (h' : off < (pad buf len).length - 8) :
    (pad buf len)[off]? = some 0x00#8 := by
  obtain ⟨k, rfl⟩ := Nat.exists_eq_add_of_lt h
  have hk : k < zeroCount buf.length := by
    rw [length_pad] at h'
    omega
  rw [pad_eq_cons, List.getElem?_append_right (by omega), show buf.length + k + 1 - buf.length = k + 1 by omega,
    List.getElem?_cons_succ, List.getElem?_append_left (by rwa [length_zeros]), zeros, List.getElem?_replicate_of_lt hk]

theorem getElem?_pad_length {k : Nat} (hk : k < 8) :
    (pad buf len)[(pad buf len).length - 8 + k]? = some (byteOf (bitlen len) k) := by
  rw [← List.getElem?_drop, drop_pad, getElem?_bytes64 _ hk]

end

/-- Settles O39: an offset falls in the buffer, on the marker, in the zero fill or in the length field. -/
theorem padLayoutByOffset : Obligations.PadLayoutByOffset := by
  intro buf len hbuf
  have hsize := length_pad_of_le len hbuf
  refine ⟨hsize, ?_⟩
  rw [← hsize]
  intro off v hv
  obtain ⟨hoff, -⟩ := List.getElem?_eq_some_iff.mp hv
  refine ⟨fun h => ?buffer, fun h => ?marker, fun h h' => ?zero, fun h => ?length⟩
  case buffer => rwa [← getElem?_pad_buf len h]
  case marker =>
    rw [h, getElem?_pad_marker] at hv
    exact (Option.some.inj hv).symm
  case zero =>
    rw [getElem?_pad_zero len h h'] at hv
    exact (Option.some.inj hv).symm
  case length =>
    obtain ⟨k, rfl⟩ := Nat.exists_eq_add_of_le h
    rw [getElem?_pad_length len (by omega)] at hv
    rw [← Option.some.inj hv, toNat_byteOf, toNat_bitlen, Nat.add_sub_cancel_left]

/-! ### The digest of a context (R134) -/

theorem Context.digest_eq_ser (x : Context) : x.digest = ser (foldBlocks x.regs (pad x.buf x.len)) := by
  rw [Context.digest, drain_eq]

/-- Settles O48: padding the tail and folding on from the registers is padding the whole stream. -/
theorem digestIsRipemd160OfStream : Obligations.DigestIsRipemd160OfStream := fun _ _ h _ => h.digest_eq

/-- Settles O29: evaluation of one `COMPRESS` of the padded empty message. -/
theorem freshDigestIsEmptyMessageVector : Obligations.FreshDigestIsEmptyMessageVector := by
  unfold Obligations.FreshDigestIsEmptyMessageVector
  decide +kernel

theorem foldBlocks_block (h : Regs) (b : Block) : foldBlocks h b.val = compress h b := by
  rw [← List.append_nil b.val, foldBlocks_block_append, foldBlocks_of_lt (by decide)]

/-- A sequence of one or two blocks, cut into them. -/
theorem exists_blocks_of_length {p : List Byte} (hp : p.length = 64 ∨ p.length = 128) :
    ∃ b0 b1 : Block, b0.val = p.take 64 ∧ (p.length = 64 ∨ p.length = 128 ∧ b1.val = p.drop 64) ∧
      ∀ h, foldBlocks h p = if p.length = 128 then compress (compress h b0) b1 else compress h b0 := by
  obtain ⟨b0, r, rfl⟩ := exists_block_append (t := p) (by omega)
  have htake : b0.val = (b0.val ++ r).take 64 := (List.take_left' b0.property).symm
  have hdrop : (b0.val ++ r).drop 64 = r := List.drop_left' b0.property
  rw [length_block_append] at hp ⊢
  rcases hp with hp | hp
  · obtain rfl : r = [] := List.length_eq_zero_iff.mp (by omega)
    refine ⟨b0, b0, htake, .inl hp, fun h => ?_⟩
    simp [foldBlocks_block]
  · refine ⟨b0, ⟨r, by omega⟩, htake, .inr ⟨hp, hdrop.symm⟩, fun h => ?_⟩
    rw [if_pos hp, foldBlocks_block_append, foldBlocks_block _ ⟨r, _⟩]

/-! ### `DIGEST` -/

/-- `DIGEST` of a context of the file: its digest bytes, then one response with its `OVF` (R70, R134). -/
theorem exec_digest_of_some {s : State} {c : Nat} {x : Context} (hhost : s.HostTakes) (hx : s.ctxs[c]? = some x) :
    exec (.digest c) s =
      .next ((s.emit (x.digest.map Beat.dout)).emit [.rsp (if x.ovf then 0x100#32 else 0#32)]) := by
  rw [exec_of_hostTakes hhost (Nat.zero_le _), State.after_digest hx, responseWord_done]

/-- Settles O25: the padded copy is cut into its one or two blocks, and a bad index is answered with its cause. -/
theorem digestPadsCompressesAndDelivers : Obligations.DigestPadsCompressesAndDelivers := by
  intro s c hhost
  refine ⟨fun x hx hbuf => ?legal, fun hc => ?badContext⟩
  case legal =>
    obtain ⟨b0, b1, hb0, hb1, hfold⟩ := exists_blocks_of_length (length_pad_cases x.len (Nat.le_of_lt_succ hbuf))
    refine ⟨b0, b1, hb0, hb1, ?_⟩
    rw [exec_digest_of_some hhost hx, Context.digest_eq_ser, hfold]
    rfl
  case badContext =>
    exact exec_of_badContext (i := .digest c) hhost.1 (fun _ _ => hhost.2) (Nat.zero_le _) (List.mem_singleton_self c) hc

/-- Settles O26: the beats are all that `DIGEST` adds to the state. -/
theorem digestIsNonDestructive : Obligations.DigestIsNonDestructive := by
  intro s c hhost hc
  obtain ⟨x, hx⟩ := State.exists_ctx hc
  exact ⟨_, x.digest, _, exec_digest_of_some hhost hx, rfl, rfl, rfl, length_digest x⟩

/-- Settles O28: the bit length is taken modulo 2^64 and `OVF` shows in the response alone. -/
theorem overflowedDigestStillDelivers : Obligations.OverflowedDigestStillDelivers := by
  intro s c x hhost hx hovf
  have hexec := exec_digest_of_some hhost hx
  rw [if_pos hovf] at hexec
  refine ⟨_, x.digest, hexec, rfl, length_digest x, rfl, ?_⟩
  rw [Context.digest_eq_ser, pad, ← toNat_bitlen, BitVec.ofNat_toNat, BitVec.setWidth_eq]

/-! ### Removing a `DIGEST` (R136) -/

theorem State.ctxs_after_digest (s : State) (c : Nat) : (s.after (.digest c)).ctxs = s.ctxs := by
  cases hx : s.ctxs[c]? with
  | some x => rw [State.after_digest hx, State.ctxs_emit, State.ctxs_emit]
  | none =>
    have hc : s.nctx ≤ c := List.getElem?_eq_none_iff.mp hx
    rw [State.after_of_badContext (i := .digest c) (List.mem_singleton_self c) hc, State.ctxs_emit, State.ctxs_setDin]

theorem State.din_after_digest (s : State) (c : Nat) : (s.after (.digest c)).din = s.din := rfl

/-- R135: a command finds after a `DIGEST` the contexts and the payload it would have found before. -/
theorem State.effectOf_after_digest (s : State) (c : Nat) (i : Instr) :
    (s.after (.digest c)).effectOf i = s.effectOf i := by
  rw [State.effectOf, State.ctxs_after_digest, State.din_after_digest, State.effectOf]

/-- Settles O27: a `DIGEST` leaves all that a command's effect and its completion depend on. -/
theorem removingDigestChangesNothing : Obligations.RemovingDigestChangesNothing := by
  intro s t u c i hdigest hi
  cases eq_after_of_exec hdigest
  cases eq_after_of_exec hi
  have hpay : payloadCount i ≤ (s.after (.digest c)).din.length := payload_le_of_exec (s := s) hi
  refine ⟨_, (s.effectOf i).beats, exec_of_exec hi rfl rfl (State.nctx_after s _) hpay, ?_, rfl, rfl, ?_⟩
  · rw [State.ctxs_after, State.effectOf_after_digest, State.ctxs_after_digest, State.ctxs_after]
  · rw [State.out_after, State.effectOf_after_digest]

end Sys2Proof.Machine

/-! # Proofs of the family 60_exceptions: what a faulting word leaves behind -/

namespace Sys2Proof.Machine

/-! ### The answer to a bad context (R154) -/

/-- A bad-context answer that drops no payload is that of a command that has none. -/
theorem badContextVerdict_faulted {i : Instr} {cause : Cause} (h : badContextVerdict i = .faulted cause) :
    cause = .badContext ∧ payloadCount i = 0 := by
  cases i with
  | absorb c n => cases h
  | _ =>
    cases h
    exact ⟨rfl, rfl⟩

/-- Only `ABSORB` has a payload to drop. -/
theorem badContextVerdict_faultedAbsorb {i : Instr} {cause : Cause} {n : Nat}
    (h : badContextVerdict i = .faultedAbsorb cause n) : cause = .badContext ∧ ∃ c, i = .absorb c n := by
  cases i with
  | absorb c n =>
    cases h
    exact ⟨rfl, c, rfl⟩
  | _ => cases h

/-- A word is faulted by the decoder, or spells a command that has no payload and names a bad context. -/
theorem verdict_faulted_cases {nctx : Nat} {w : Word} {cause : Cause} (h : verdict nctx w = .faulted cause) :
    decode w = .error cause ∨
    (cause = .badContext ∧ ∃ i, decode w = .ok i ∧ legalIn nctx i = false ∧ payloadCount i = 0) := by
  rcases verdict_cases nctx w with ⟨c, hd, hv⟩ | ⟨i, -, -, hv⟩ | ⟨i, hd, hi, hv⟩
  · cases h.symm.trans hv
    exact .inl hd
  · cases h.symm.trans hv
  · obtain ⟨hcause, hn⟩ := badContextVerdict_faulted (hv.symm.trans h)
    exact .inr ⟨hcause, i, hd, hi, hn⟩

/-- A word whose payload is dropped spells an `ABSORB` of a bad context. -/
theorem verdict_faultedAbsorb {nctx : Nat} {w : Word} {cause : Cause} {n : Nat}
    (h : verdict nctx w = .faultedAbsorb cause n) :
    cause = .badContext ∧ ∃ c, decode w = .ok (.absorb c n) ∧ legalIn nctx (.absorb c n) = false := by
  rcases verdict_cases nctx w with ⟨c, -, hv⟩ | ⟨i, -, -, hv⟩ | ⟨i, hd, hi, hv⟩
  · cases h.symm.trans hv
  · cases h.symm.trans hv
  · obtain ⟨hcause, c, rfl⟩ := badContextVerdict_faultedAbsorb (hv.symm.trans h)
    exact ⟨hcause, c, hd, hi⟩

/-! ### The step of a faulting word (R153) -/

/-- A command with a bad context delivers nothing, so not even a `DIGEST` waits for `DOUT`. -/
theorem exec_of_not_legal {i : Instr} {s : State} (hr : s.rspReady = true) (hn : payloadCount i ≤ s.din.length)
    (hi : legalIn s.nctx i = false) :
    exec i s = .next ((s.setDin (s.din.drop (payloadCount i))).emit [.rsp 3#32]) := by
  obtain ⟨c, hc, hle⟩ : ∃ c ∈ namedContexts i, s.nctx ≤ c := by simpa [legalIn] using hi
  cases i with
  | digest c' =>
    cases List.mem_singleton.mp hc
    exact (withContext_of_none hle).trans (respond_of_ready hr)
  | _ => exact exec_of_badContext hr (by simp) hn hc hle

section
variable {s : State} {w : Word} {ws : List Word} (hrst : s.rst = .released) (hcmd : s.cmd = w :: ws)
  (hr : s.rspReady = true)
include hrst hcmd hr

theorem step_of_decode_error {cause : Cause} (hd : decode w = .error cause) :
    step s = .next ((s.setCmd ws).emit [.rsp (responseWord (.faulted cause))]) := by
  rw [step_of_released hrst, acceptCommand_of_cons hcmd, runWord_of_error hd]
  exact respond_of_ready (s := s.setCmd ws) hr

theorem step_of_not_legal {i : Instr} (hd : decode w = .ok i) (hi : legalIn s.nctx i = false)
    (hn : payloadCount i ≤ s.din.length) :
    step s = .next (((s.setCmd ws).setDin (s.din.drop (payloadCount i))).emit [.rsp 3#32]) := by
  rw [step_of_released hrst, acceptCommand_of_cons hcmd, runWord_of_ok hd]
  exact exec_of_not_legal (s := s.setCmd ws) hr hn hi

/-- R153: a fault without payload takes the word and issues its cause, and that is all. -/
theorem step_of_faulted {cause : Cause} (hv : verdict s.nctx w = .faulted cause) :
    step s = .next ((s.setCmd ws).emit [.rsp (responseWord (.faulted cause))]) := by
  rcases verdict_faulted_cases hv with hd | ⟨rfl, i, hd, hi, hn⟩
  · exact step_of_decode_error hrst hcmd hr hd
  · have hstep := step_of_not_legal hrst hcmd hr hd hi (by omega)
    rwa [hn] at hstep

end

/-- Settles O9: a word without a command, or with a bad context, is answered with its cause; of the latter only an `ABSORB` has
payload to drop. -/
theorem faultingWordsLeaveNoTrace : Obligations.FaultingWordsLeaveNoTrace := by
  intro s w ws hrst hcmd hr
  refine ⟨fun cause hv => ?faulted, fun cause n hv => ?faultedAbsorb⟩
  case faulted =>
    rw [step_of_faulted hrst hcmd hr hv]
    cases cause <;> rfl
  case faultedAbsorb =>
    obtain ⟨hcause, c, hd, hi⟩ := verdict_faultedAbsorb hv
    obtain ⟨ho, -, hn⟩ := decode_eq_absorb_iff.mp hd
    exact ⟨ho, hn.symm, hcause, step_of_not_legal hrst hcmd hr hd hi⟩

end Sys2Proof.Machine

/-! # Proofs of the family 70_reset_and_hazards: the holds of the host, the reset pulse -/

namespace Sys2Proof.Machine

/-! ### Nothing is refused -/

theorem andThen_ne_refused {α β : Type} {o : Host.Outcome α Fault Refusal} {f : α → Host.Outcome β Fault Refusal}
    (ho : ∀ r, o ≠ .refused r) (hf : ∀ a r, f a ≠ .refused r) (r : Refusal) : andThen o f ≠ .refused r := by
  cases o with
  | next a => exact hf a r
  | fault q => simp
  | refused q => exact absurd rfl (ho q)

theorem takePayload_ne_refused (n : Nat) (s : State) (r : Refusal) : takePayload n s ≠ .refused r := by
  unfold takePayload
  split <;> simp

theorem emitDout_ne_refused (bs : List Byte) (s : State) (r : Refusal) : emitDout bs s ≠ .refused r := by
  unfold emitDout
  split <;> simp

theorem respond_ne_refused (q : Response) (s : State) (r : Refusal) : respond q s ≠ .refused r := by
  unfold respond
  split <;> simp

theorem withContext_ne_refused {c : Nat} {s : State} {k : Context → Outcome} (hk : ∀ x r, k x ≠ .refused r) (r : Refusal) :
    withContext c s k ≠ .refused r := by
  unfold withContext
  split
  · exact hk _ r
  · exact respond_ne_refused _ s r

theorem exec_ne_refused (i : Instr) (s : State) (r : Refusal) : exec i s ≠ .refused r := by
  cases i with
  | init c => exact withContext_ne_refused (fun _ => respond_ne_refused _ _) r
  | absorb c n =>
    exact andThen_ne_refused (takePayload_ne_refused n s)
      (fun _ => withContext_ne_refused fun _ => respond_ne_refused _ _) r
  | digest c =>
    exact withContext_ne_refused (fun x => andThen_ne_refused (emitDout_ne_refused _ s) fun _ => respond_ne_refused _ _) r
  | copy d src => exact withContext_ne_refused (fun _ => withContext_ne_refused fun _ => respond_ne_refused _ _) r

theorem runWord_ne_refused (w : Word) (s : State) (r : Refusal) : runWord w s ≠ .refused r := by
  cases hd : decode w with
  | ok i => exact runWord_of_ok hd s ▸ exec_ne_refused i s r
  | error cause => exact runWord_of_error hd s ▸ respond_ne_refused _ s r

/-- What refuses nothing stops exactly when it does not complete. -/
theorem exists_fault_iff {α : Type} {o : Host.Outcome α Fault Refusal} (h : ∀ r, o ≠ .refused r) :
    (∃ r, o = .fault r) ↔ ¬ ∃ a, o = .next a := by
  cases o with
  | next a => simp
  | fault q => simp
  | refused q => exact absurd rfl (h q)

/-! ### What the host must supply (R173, R174) -/

/-- A command completes exactly when its response is taken, its payload has arrived and the bytes of a legal `DIGEST` are
taken. -/
theorem exists_exec_iff {i : Instr} {s : State} :
    (∃ t, exec i s = .next t) ↔ s.rspReady = true ∧ payloadCount i ≤ s.din.length ∧
      ∀ c, i = .digest c → c < s.nctx → s.doutReady = true := by
  constructor
  · rintro ⟨t, h⟩
    refine ⟨rspReady_of_exec h, payload_le_of_exec h, ?_⟩
    rintro c rfl hc
    exact doutReady_of_exec_digest h hc
  · rintro ⟨hr, hn, hd⟩
    cases hi : legalIn s.nctx i with
    | false => exact ⟨_, exec_of_not_legal hr hn hi⟩
    | true =>
      refine ⟨_, exec_of_supplied hr (fun c hc => hd c hc ?_) hn⟩
      subst hc
      exact legalIn_eq_true_iff.mp hi c (List.mem_singleton_self c)

/-- A word is answered exactly when its response is taken, the payload an `ABSORB` word counts has arrived and the bytes of a
legal `DIGEST` are taken. -/
theorem exists_runWord_iff {w : Word} {s : State} :
    (∃ t, runWord w s = .next t) ↔ s.rspReady = true ∧ (opcOf w = 2 → argOf w ≤ s.din.length) ∧
      ∀ c, decode w = .ok (.digest c) → c < s.nctx → s.doutReady = true := by
  cases hd : decode w with
  | ok i =>
    have hpay : payloadCount i ≤ s.din.length ↔ (opcOf w = 2 → argOf w ≤ s.din.length) := by
      rw [payloadCount_of_decode hd]
      split <;> simp [*]
    simp only [runWord_of_ok hd, exists_exec_iff, hpay, Except.ok.injEq]
  | error cause =>
    simp [runWord_of_error hd, raiseFault_eq_next, opcOf_ne_two_of_error hd]

/-- A word stops the step exactly on one of its three holds. -/
theorem exists_runWord_fault_iff {w : Word} {s : State} :
    (∃ r, runWord w s = .fault r) ↔ s.rspReady = false ∨ (opcOf w = 2 ∧ s.din.length < argOf w) ∨
      ∃ c, decode w = .ok (.digest c) ∧ c < s.nctx ∧ s.doutReady = false := by
  rw [exists_fault_iff (runWord_ne_refused w s), exists_runWord_iff]
  simp only [not_and_or, not_forall, exists_prop, Nat.not_le, Bool.not_eq_true]

/-! ### Where the step stops -/

theorem step_of_atIdle {s : State} (h : s.rst = .atIdle) : step s = .next (freshContexts s) := by
  simp [step, h]

theorem step_of_inCommand {s : State} {took gave : Nat} (h : s.rst = .inCommand took gave) :
    step s = .next (freshContexts (abandonCommand took gave s)) := by
  simp [step, h]

/-- Settles O11: a pulse of reset completes, and with reset released a word is answered unless the host holds it up. -/
theorem stepStopsOnlyOnHostHolds : Obligations.StepStopsOnlyOnHostHolds := by
  intro s
  cases hrst : s.rst with
  | atIdle => simp [step_of_atIdle hrst]
  | inCommand took gave => simp [step_of_inCommand hrst]
  | released =>
    rw [step_of_released hrst]
    cases hcmd : s.cmd with
    | nil => simp [acceptCommand, hcmd]
    | cons w ws =>
      rw [acceptCommand_of_cons hcmd]
      refine ⟨runWord_ne_refused w _, ?_⟩
      simp [exists_runWord_fault_iff]

/-! ### The reset pulse (R170, R171) -/

theorem nctx_freshContexts (s : State) : (freshContexts s).nctx = s.nctx := List.length_replicate

theorem getElem?_freshContexts {s : State} {c : Nat} (h : c < s.nctx) : (freshContexts s).ctxs[c]? = some Context.fresh :=
  List.getElem?_replicate_of_lt h

@[simp] theorem rspOf_append (as bs : List Beat) : rspOf (as ++ bs) = rspOf as ++ rspOf bs := List.filterMap_append

@[simp] theorem rspOf_map_dout (bs : List Byte) : rspOf (bs.map Beat.dout) = [] := by
  simp [rspOf]

/-- R171: an abandoned command issues no response. -/
theorem rspOf_out_abandonCommand (took gave : Nat) (s : State) : rspOf (abandonCommand took gave s).out = rspOf s.out := by
  simp [abandonCommand]

section
variable {s : State} {w : Word} {ws : List Word} (hcmd : s.cmd = w :: ws)
include hcmd

theorem headPayload_of_decode {i : Instr} (hd : decode w = .ok i) : headPayload s = payloadCount i := by
  simp [headPayload, hcmd, hd]

theorem headDigest_of_digest {c : Nat} {x : Context} (hd : decode w = .ok (.digest c)) (hx : s.ctxs[c]? = some x) :
    headDigest s = x.digest := by
  simp [headDigest, hcmd, hd, hx]

theorem headDigest_of_not_digest {i : Instr} (hd : decode w = .ok i) (hi : ∀ c, i ≠ .digest c) : headDigest s = [] := by
  cases i with
  | digest c => exact absurd rfl (hi c)
  | _ => simp [headDigest, hcmd, hd]

end

/-- R171: what a pulse during the command `i` takes from the ports and has issued by then. -/
theorem abandonCommand_of_encode {s : State} {i : Instr} {ws : List Word} (took gave : Nat) (hcmd : s.cmd = encode i :: ws)
    (hwf : i.wf = true) :
    (abandonCommand took gave s).cmd = ws ∧
    (abandonCommand took gave s).din = s.din.drop (min took (payloadCount i)) ∧
    (∀ c x, i = .digest c → s.ctxs[c]? = some x → s.doutReady = true →
      (abandonCommand took gave s).out = s.out ++ (x.digest.take gave).map Beat.dout) ∧
    ((∀ c, i ≠ .digest c) → (abandonCommand took gave s).out = s.out) := by
  have hd : decode (encode i) = .ok i := decodeOfEncodeIsIdentity i hwf
  refine ⟨?cmd, ?din, ?digest, fun hi => ?other⟩
  case cmd => simp [abandonCommand, hcmd]
  case din => simp [abandonCommand, headPayload_of_decode hcmd hd]
  case digest =>
    rintro c x rfl hx hready
    simp [abandonCommand, headDigest_of_digest hcmd hd hx, hready]
  case other => simp [abandonCommand, headDigest_of_not_digest hcmd hd hi]

/-- Settles O15: a pulse makes the contexts fresh, and one during a command abandons it first. -/
theorem resetPulseRestoresContexts : Obligations.ResetPulseRestoresContexts := by
  intro s hasserted
  cases hrst : s.rst with
  | released => exact absurd hrst hasserted
  | atIdle =>
    exact ⟨_, step_of_atIdle hrst, nctx_freshContexts s, rfl, fun _ => getElem?_freshContexts, rfl,
      fun _ => ⟨rfl, rfl, rfl⟩, fun _ _ _ _ h => nomatch h⟩
  | inCommand took gave =>
    refine ⟨_, step_of_inCommand hrst, nctx_freshContexts _, rfl, fun _ => getElem?_freshContexts,
      rspOf_out_abandonCommand took gave s, fun h => (nomatch h), ?_⟩
    intro took' gave' i ws h hcmd hwf
    cases h
    exact abandonCommand_of_encode took gave hcmd hwf

end Sys2Proof.Machine

/-! # Proofs of the family other: messages in pieces (R115, R134) -/

namespace Sys2Proof.Machine

/-- R115 over any list of pieces: a context that holds a stream holds it followed by the pieces, once it has absorbed them
in turn. -/
theorem Context.Holds.foldl_absorb {x : Context} {m : List Byte} (h : x.Holds m) (ps : List (List Byte)) :
    (ps.foldl Context.absorb x).Holds (m ++ ps.flatten) := by
  induction ps generalizing x m with
  | nil => rwa [List.flatten_nil, List.append_nil]
  | cons p ps ih =>
    rw [List.foldl_cons, List.flatten_cons, ← List.append_assoc]
    exact ih (h.absorb p)

/-- Settles O49: the pieces leave a context that holds their concatenation, and the digest depends on the stream held alone.
The length bound is not needed: R134's length field is the bit length modulo 2^64. -/
theorem piecewiseDigestIsRipemd160 : Obligations.PiecewiseDigestIsRipemd160 := fun ps _ =>
  (Context.fresh_holds.foldl_absorb ps).digest_eq

end Sys2Proof.Machine
